-- ==== Sys2Proof/Config.lean ====
section
/-! DEFINITION. What an implementation fixes (R7). `CAP_WORDS`, which the spec leaves open as a parameter of the model,
is not here: it is the field `cap` of State (assumption 1). -/

namespace Sys2Proof.Config

/-- `WORD_BITS`: bits in one word of the word array (R7). -/
abbrev wordBits : Nat := 32

/-- `WMAX`: the largest field width a command accepts (R7, R32; assumption 7). -/
abbrev wmax : Nat := 64

/-- `NC_KMAX`: the largest element width of a non-crossing structure (R7, R120). -/
abbrev ncKmax : Nat := 32

/-- The value of `CAP_WORDS` that `State.reset` names. DESIGN CHOICE (assumption 1): the spec leaves `CAP_WORDS` open
and its test vectors take 8 (R7). Unsafe to lean on: no statement does. -/
abbrev resetCap : BitVec 32 := 8

end Sys2Proof.Config
end

