-- ==== Sys2Proof/Word.lean ====
section
/-! DEFINITION. The machine's word types: the 32-bit word of the word array (R7, R23), the byte in which the model
stores it (R52), and the 256-bit packet of the port (R70, R74). -/

namespace Sys2Proof

/-- A byte of the word array's storage, or of a packet on the port (R52, R71). -/
abbrev Byte := BitVec 8

/-- One word of the word array (`WORD_BITS = 32`, R7). -/
abbrev Word := BitVec 32

/-- A command packet or a response packet (`PKT_BITS = 256`, R7). -/
abbrev Packet := BitVec 256

end Sys2Proof
end

