-- ==== Sys2Proof/Syntax.lean ====
section
/-! DEFINITION. The thirteen commands (R76) with their operands already converted to mathematical integers (R72). -/

namespace Sys2Proof

/-- The layout engine a structure uses: the `MODE` register and the mode operand (R27, R83). -/
inductive Mode where
  /-- `C`, mode value 0. -/
  | crossing
  /-- `NC`, mode value 1. -/
  | nonCrossing
  deriving DecidableEq, Repr

/-- The eleven control and status registers (R26 to R33). -/
inductive Csr where
  | phase | mode | k | n | len | pos | smax | sany | err | wmax | cap
  deriving DecidableEq, Repr

/-- A legal command. Operands stand in the order of the assembler syntax (R82): mode or register, width, address or
count, value. -/
inductive Instr where
  /-- `NOP` (R161). -/
  | nop
  /-- `CLEAR` (R160). -/
  | clear
  /-- `RDCSR csr` (R162). -/
  | rdcsr (csr : Csr)
  /-- `PACK w, s, v` (R95): width, start bit, value. -/
  | pack (w s v : Int)
  /-- `UNPACK w, s` (R97): width, start bit. -/
  | unpack (w s : Int)
  /-- `SCAN v` (R136). -/
  | scan (v : Int)
  /-- `BEGIN mode, k` (R137). -/
  | begin (mode : Mode) (k : Int)
  /-- `BEGINA mode` (R138). -/
  | begina (mode : Mode)
  /-- `PUSH v` (R139). -/
  | push (v : Int)
  /-- `SEAL` (R140). -/
  | sealBuild
  /-- `ATTACH mode, k, n` (R141). -/
  | attach (mode : Mode) (k n : Int)
  /-- `GET i` (R142). -/
  | get (i : Int)
  /-- `SBIT i` (R143). -/
  | sbit (i : Int)
  deriving DecidableEq, Repr

end Sys2Proof
end

