-- ==== Sys2Proof/WellFormed.lean ====
section
/-! DEFINITION. Which commands have an encoding: every operand lies in the range of its packet field (R70, R72). -/

namespace Sys2Proof

/-- `x` is the value of a signed `bits`-bit two's-complement field (R72). -/
def fitsSigned (bits : Nat) (x : Int) : Bool :=
  decide (-(2 ^ (bits - 1) : Int) ≤ x) && decide (x < (2 ^ (bits - 1) : Int))

/-- The range of the `W` field: `[-32768, 32767]` (R72). -/
abbrev fitsW (x : Int) : Bool := fitsSigned 16 x

/-- The range of the `A` field: `[-2^63, 2^63 - 1]` (R72). -/
abbrev fitsA (x : Int) : Bool := fitsSigned 64 x

/-- The range of the `V` field: `[-2^127, 2^127 - 1]` (R72). -/
abbrev fitsV (x : Int) : Bool := fitsSigned 128 x

/-- A command that some packet encodes. Operands of the kinds `Mode` and `Csr` are legal by their type (R78). -/
def Instr.wf : Instr → Bool
  | .nop => true
  | .clear => true
  | .rdcsr _ => true
  | .pack w s v => fitsW w && fitsA s && fitsV v
  | .unpack w s => fitsW w && fitsA s
  | .scan v => fitsV v
  | .begin _ k => fitsW k
  | .begina _ => true
  | .push v => fitsV v
  | .sealBuild => true
  | .attach _ k n => fitsW k && fitsA n
  | .get i => fitsA i
  | .sbit i => fitsA i

end Sys2Proof
end

