-- ==== Sys2Proof/Decode.lean ====
section
/-! DEFINITION. The command packet (R70, R71), its decoder (R72, R73, R76 to R78), the encoder (R81) and the mask
table (R85). -/

namespace Sys2Proof

/-! ## Fields of a packet (R70) -/

/-- `OP`, bits 7:0. -/
def Packet.op (p : Packet) : BitVec 8 := p.extractLsb' 0 8
/-- `M`, bits 15:8. -/
def Packet.m (p : Packet) : BitVec 8 := p.extractLsb' 8 8
/-- `W`, bits 31:16. -/
def Packet.w (p : Packet) : BitVec 16 := p.extractLsb' 16 16
/-- `Z`, bits 63:32: reserved, zero. -/
def Packet.z (p : Packet) : BitVec 32 := p.extractLsb' 32 32
/-- `A`, bits 127:64. -/
def Packet.a (p : Packet) : BitVec 64 := p.extractLsb' 64 64
/-- `V`, bits 255:128. -/
def Packet.v (p : Packet) : BitVec 128 := p.extractLsb' 128 128

/-- The packet with the given fields, `Z` zero (R70). -/
def Packet.make (op m : BitVec 8) (w : BitVec 16) (a : BitVec 64) (v : BitVec 128) : Packet :=
  v ++ a ++ (0 : BitVec 32) ++ w ++ m ++ op

/-! ## Selectors: the `M` field (R27, R33, R78) -/

/-- The mode value of the `M` field and of the `MODE` register (R27). -/
def Mode.code : Mode → BitVec 8
  | .crossing => 0
  | .nonCrossing => 1

/-- The mode an `M` field names: values 2 to 255 are reserved (R78). -/
def modeOfCode (m : BitVec 8) : Option Mode :=
  match m.toNat with
  | 0 => some .crossing
  | 1 => some .nonCrossing
  | _ => none

/-- The index of a control and status register (R33). -/
def Csr.index : Csr → BitVec 8
  | .phase => 0
  | .mode => 1
  | .k => 2
  | .n => 3
  | .len => 4
  | .pos => 5
  | .smax => 6
  | .sany => 7
  | .err => 8
  | .wmax => 9
  | .cap => 10

/-- The register an `M` field names: indices 11 to 255 are reserved (R33, R78). -/
def csrOfIndex (m : BitVec 8) : Option Csr :=
  match m.toNat with
  | 0 => some .phase
  | 1 => some .mode
  | 2 => some .k
  | 3 => some .n
  | 4 => some .len
  | 5 => some .pos
  | 6 => some .smax
  | 7 => some .sany
  | 8 => some .err
  | 9 => some .wmax
  | 10 => some .cap
  | _ => none

/-! ## Decoding (R78) -/

/-- Why a packet is no legal command (R78). Neither stops the machine: each ends in an error response. -/
inductive DecodeError where
  /-- `OP` is not one of the thirteen assigned values: `E_ILLEGAL_OP`. -/
  | illegalOp
  /-- `OP` is assigned, but `Z` or an unused field is non-zero, or the mode or the register index is reserved:
  `E_ILLEGAL_FIELD`. -/
  | illegalField
  deriving DecidableEq, Repr

/-- The command `i` if `Z` is zero and the unused fields are zero, as `unused` says (R73, R78). -/
def Packet.accept (p : Packet) (unused : Bool) (i : Instr) : Except DecodeError Instr :=
  if p.z = 0 ∧ unused = true then .ok i else .error .illegalField

/-- As `Packet.accept`, for a command whose `M` field selects something: a reserved value is an illegal field. -/
def Packet.acceptSel {α : Type} (p : Packet) (sel : Option α) (unused : Bool) (i : α → Instr) :
    Except DecodeError Instr :=
  match sel with
  | some x => p.accept unused (i x)
  | none => .error .illegalField

/-- The decoder: total on all packets (R78), whatever the phase (R79). Numeric operands become integers (R72). -/
def decode (p : Packet) : Except DecodeError Instr :=
  match p.op.toNat with
  | 0x00 => p.accept (p.m == 0 && p.w == 0 && p.a == 0 && p.v == 0) .nop
  | 0x01 => p.accept (p.m == 0 && p.w == 0 && p.a == 0 && p.v == 0) .clear
  | 0x02 => p.acceptSel (csrOfIndex p.m) (p.w == 0 && p.a == 0 && p.v == 0) .rdcsr
  | 0x10 => p.accept (p.m == 0) (.pack p.w.toInt p.a.toInt p.v.toInt)
  | 0x11 => p.accept (p.m == 0 && p.v == 0) (.unpack p.w.toInt p.a.toInt)
  | 0x20 => p.accept (p.m == 0 && p.w == 0 && p.a == 0) (.scan p.v.toInt)
  | 0x21 => p.acceptSel (modeOfCode p.m) (p.a == 0 && p.v == 0) (.begin · p.w.toInt)
  | 0x22 => p.acceptSel (modeOfCode p.m) (p.w == 0 && p.a == 0 && p.v == 0) .begina
  | 0x23 => p.accept (p.m == 0 && p.w == 0 && p.a == 0) (.push p.v.toInt)
  | 0x24 => p.accept (p.m == 0 && p.w == 0 && p.a == 0 && p.v == 0) .sealBuild
  | 0x25 => p.acceptSel (modeOfCode p.m) (p.v == 0) (.attach · p.w.toInt p.a.toInt)
  | 0x30 => p.accept (p.m == 0 && p.w == 0 && p.v == 0) (.get p.a.toInt)
  | 0x31 => p.accept (p.m == 0 && p.w == 0 && p.v == 0) (.sbit p.a.toInt)
  | _ => .error .illegalOp

/-! ## Encoding (R81) -/

/-- The opcode of a command (R76). -/
def Instr.opcode : Instr → BitVec 8
  | .nop => 0x00
  | .clear => 0x01
  | .rdcsr _ => 0x02
  | .pack _ _ _ => 0x10
  | .unpack _ _ => 0x11
  | .scan _ => 0x20
  | .begin _ _ => 0x21
  | .begina _ => 0x22
  | .push _ => 0x23
  | .sealBuild => 0x24
  | .attach _ _ _ => 0x25
  | .get _ => 0x30
  | .sbit _ => 0x31

/-- The encoder (R81): each operand modulo the width of its field, unused fields zero. -/
def encode (i : Instr) : Packet :=
  match i with
  | .nop => .make i.opcode 0 0 0 0
  | .clear => .make i.opcode 0 0 0 0
  | .rdcsr c => .make i.opcode c.index 0 0 0
  | .pack w s v => .make i.opcode 0 (.ofInt 16 w) (.ofInt 64 s) (.ofInt 128 v)
  | .unpack w s => .make i.opcode 0 (.ofInt 16 w) (.ofInt 64 s) 0
  | .scan v => .make i.opcode 0 0 0 (.ofInt 128 v)
  | .begin md k => .make i.opcode md.code (.ofInt 16 k) 0 0
  | .begina md => .make i.opcode md.code 0 0 0
  | .push v => .make i.opcode 0 0 0 (.ofInt 128 v)
  | .sealBuild => .make i.opcode 0 0 0 0
  | .attach md k n => .make i.opcode md.code (.ofInt 16 k) (.ofInt 64 n) 0
  | .get x => .make i.opcode 0 0 (.ofInt 64 x) 0
  | .sbit x => .make i.opcode 0 0 (.ofInt 64 x) 0

/-! ## A packet as bytes on the port (R71) -/

/-- The number whose little-endian bytes are given. -/
def natOfBytes : List Byte → Nat
  | [] => 0
  | b :: bs => b.toNat + 256 * natOfBytes bs

/-- The packet 32 bytes carry, byte `m` being bits `8m+7:8m` (R71); no other number of bytes is a packet (R70). -/
def packetOfBytes (bs : List Byte) : Option Packet :=
  if bs.length = 32 then some (BitVec.ofNat 256 (natOfBytes bs)) else none

/-- The 32 bytes of a packet, command or response, in port order (R71, R74). -/
def packetBytes (p : Packet) : List Byte :=
  (List.range 32).map fun m => p.extractLsb' (8 * m) 8

/-- Decoding from the bytes on the port (R71, R78). -/
def decodeBytes (bs : List Byte) : Option (Except DecodeError Instr) :=
  (packetOfBytes bs).map decode

/-- The packet whose low `nbits` bits are `w`, the bits above zero. -/
def tableWordPacket (nbits w : Nat) : Packet := BitVec.ofNat 256 (w % 2 ^ nbits)

/-- The command the decoder reads from the bytes of a row's word; none where it refuses. -/
def decodeTableWord (nbits w : Nat) : Option Instr :=
  match decodeBytes (packetBytes (tableWordPacket nbits w)) with
  | some (.ok i) => some i
  | _ => none

/-! ## The mask table (R85) -/

/-- One row of R85: a packet `p` is the command iff `p &&& mask = pattern`, but for the reserved values of `M`. -/
structure OpcodeRow where
  /-- The command's mnemonic. -/
  mnemonic : String
  /-- The bits that must match. -/
  mask : Packet
  /-- What they must be: the opcode in the low byte, zero elsewhere. -/
  pattern : Packet
  /-- The values of `M` the row admits are those below this bound (R78); 256 where the mask decides. -/
  mBound : Nat
  deriving DecidableEq, Repr

/-- The table of R85. -/
def opcodeRows : List OpcodeRow := [
  ⟨"NOP",    0xFFFFFFFFFFFFFFFFFFFFFFFFFFFFFFFFFFFFFFFFFFFFFFFFFFFFFFFFFFFFFFFF, 0x00, 256⟩,
  ⟨"CLEAR",  0xFFFFFFFFFFFFFFFFFFFFFFFFFFFFFFFFFFFFFFFFFFFFFFFFFFFFFFFFFFFFFFFF, 0x01, 256⟩,
  ⟨"RDCSR",  0xFFFFFFFFFFFFFFFFFFFFFFFFFFFFFFFFFFFFFFFFFFFFFFFFFFFFFFFFFFFF00FF, 0x02, 11⟩,
  ⟨"PACK",   0x000000000000000000000000000000000000000000000000FFFFFFFF0000FFFF, 0x10, 256⟩,
  ⟨"UNPACK", 0xFFFFFFFFFFFFFFFFFFFFFFFFFFFFFFFF0000000000000000FFFFFFFF0000FFFF, 0x11, 256⟩,
  ⟨"SCAN",   0x00000000000000000000000000000000FFFFFFFFFFFFFFFFFFFFFFFFFFFFFFFF, 0x20, 256⟩,
  ⟨"BEGIN",  0xFFFFFFFFFFFFFFFFFFFFFFFFFFFFFFFFFFFFFFFFFFFFFFFFFFFFFFFF000000FF, 0x21, 2⟩,
  ⟨"BEGINA", 0xFFFFFFFFFFFFFFFFFFFFFFFFFFFFFFFFFFFFFFFFFFFFFFFFFFFFFFFFFFFF00FF, 0x22, 2⟩,
  ⟨"PUSH",   0x00000000000000000000000000000000FFFFFFFFFFFFFFFFFFFFFFFFFFFFFFFF, 0x23, 256⟩,
  ⟨"SEAL",   0xFFFFFFFFFFFFFFFFFFFFFFFFFFFFFFFFFFFFFFFFFFFFFFFFFFFFFFFFFFFFFFFF, 0x24, 256⟩,
  ⟨"ATTACH", 0xFFFFFFFFFFFFFFFFFFFFFFFFFFFFFFFF0000000000000000FFFFFFFF000000FF, 0x25, 2⟩,
  ⟨"GET",    0xFFFFFFFFFFFFFFFFFFFFFFFFFFFFFFFF0000000000000000FFFFFFFFFFFFFFFF, 0x30, 256⟩,
  ⟨"SBIT",   0xFFFFFFFFFFFFFFFFFFFFFFFFFFFFFFFF0000000000000000FFFFFFFFFFFFFFFF, 0x31, 256⟩]

/-- The packet is the row's command (R78, R85). -/
def OpcodeRow.admits (r : OpcodeRow) (p : Packet) : Bool :=
  p &&& r.mask == r.pattern && decide (p.m.toNat < r.mBound)

end Sys2Proof
end

