-- ==== Sys2Proof/Machine/State.lean ====
section
/-! DEFINITION. The state of the block, the host's actions waiting at its port, the error codes, and the state after
reset. -/

namespace Sys2Proof.Machine

/-- The stage of life of the structure in the block: the `PHASE` register (R26). -/
inductive Phase where
  /-- No structure: the word array is a free bit stream. -/
  | raw
  /-- A structure is under construction. -/
  | build
  /-- A structure exists and is read-only. -/
  | sealed
  /-- A `PUSH` failed; the build is dead. -/
  | failed
  deriving DecidableEq, Repr

/-- The fourteen error codes the block raises (R170). The reserved codes `E_STRUCT` and `E_INVARIANT` are never raised
and have no constructor (R171, U17). -/
inductive ErrorCode where
  /-- 0x10: the value is negative. -/
  | negValue
  /-- 0x11: the value does not fit the field. -/
  | noFit
  /-- 0x12: the width is negative. -/
  | negWidth
  /-- 0x13: the width is above what the block supports. -/
  | widthMax
  /-- 0x14: the start bit is negative. -/
  | negStart
  /-- 0x15: an element of a structure of width 0. -/
  | zeroK
  /-- 0x16: the element count is outside the `N` register. -/
  | count
  /-- 0x20: the index is outside `[0, N)`. -/
  | range
  /-- 0x50: the opcode is not assigned. -/
  | illegalOp
  /-- 0x51: a reserved or unused field is not as it must be. -/
  | illegalField
  /-- 0x60: the command is not accepted in this phase. -/
  | phase
  /-- 0x61: a build is begun over a word array that is not empty. -/
  | phaseNotEmpty
  /-- 0x70: the write needs more than `CAP_WORDS` words. -/
  | capWords
  /-- 0x71: `N` is already `2^32 - 1`. -/
  | capCount
  deriving DecidableEq, Repr

/-- What the host does at the port (R12, R198). -/
inductive HostAction where
  /-- Present a command packet. -/
  | packet (p : Packet)
  /-- Assert reset between commands (R190). -/
  | reset
  /-- Assert reset while the command `p` is executing: the command is lost (R190). -/
  | resetDuring (p : Packet)
  deriving DecidableEq, Repr

/-- The storage of the word array: byte addresses and bytes, addresses strictly rising, no zero byte; an unlisted byte
reads 0 (R52, R90; assumption 5). -/
abbrev Memory := List Host.Cell

/-- The canonical form of the storage. -/
abbrev Memory.wf (m : Memory) : Prop :=
  m.Pairwise (fun c d => c.1 < d.1) ∧ ∀ c ∈ m, c.2 ≠ 0

/-- The state of the block (R23, R26 to R32), and the two ends of its port. -/
structure State where
  /-- `PHASE`, CSR 0 (R26). -/
  phase : Phase
  /-- `MODE`, CSR 1 (R27). -/
  mode : Mode
  /-- `K`, CSR 2: element width in bits (R27). -/
  k : BitVec 16
  /-- `N`, CSR 3: number of elements (R27). -/
  n : BitVec 32
  /-- `LEN`, CSR 4: number of words of the word array (R27). -/
  len : BitVec 32
  /-- `POS`, CSR 5: the build cursor (R28). -/
  pos : BitVec 64
  /-- `SMAX`, CSR 6: the largest value scanned (R29). -/
  smax : BitVec 64
  /-- `SANY`, CSR 7: whether a value was scanned (R29). -/
  sany : Bool
  /-- `ERR`, CSR 8: the first error since the last `CLEAR` or reset (R31). -/
  err : BitVec 8
  /-- `CAP`, CSR 10: the constant `CAP_WORDS`; nothing writes it (R32; assumption 1). -/
  cap : BitVec 32
  /-- The words of the word array, stored as bytes (R23, R52). -/
  mem : Memory
  /-- The host's actions the block has not taken yet, oldest first. The model's own field (assumption 2). -/
  port : List HostAction
  /-- The response packet of the last command, if one was given since reset (R74; assumption 4). -/
  resp : Option Packet
  deriving DecidableEq, Repr

/-- Reasons to stop with a fault. There is none: every error of the block is a status in a response, after which the
block goes on (R176, R178), and every packet has a defined outcome (R198). Safe. -/
inductive Fault where
  deriving DecidableEq, Repr

/-- Reasons to refuse. No meaning of this model gives one. -/
inductive Refusal where
  /-- The instruction has no meaning in the model. Raised by an arm of `exec` only, and no arm raises it. Safe. -/
  | notModelled (mnemonic : String)
  deriving DecidableEq, Repr

/-- The state after reset of a block whose `CAP_WORDS` is `cap` (R38, R190), no action waiting and no response given. -/
def State.resetWith (cap : BitVec 32) : State where
  phase := .raw
  mode := .crossing
  k := 0
  n := 0
  len := 0
  pos := 0
  smax := 0
  sany := false
  err := 0
  cap := cap
  mem := []
  port := []
  resp := none

/-- The machine right after reset (R38), with the `CAP_WORDS` that assumption 1 names. -/
def State.reset : State := State.resetWith Config.resetCap

end Sys2Proof.Machine
end

