-- ==== Sys2Proof/Machine/Flags.lean ====
section
/-! DEFINITION. The block has no flags (R22). What stands in their place: the status codes (R170), the sticky `ERR`
register (R31) and the response packet (R74). -/

namespace Sys2Proof.Machine

/-- The value of a status code (R170). -/
def ErrorCode.code : ErrorCode → BitVec 8
  | .negValue => 0x10
  | .noFit => 0x11
  | .negWidth => 0x12
  | .widthMax => 0x13
  | .negStart => 0x14
  | .zeroK => 0x15
  | .count => 0x16
  | .range => 0x20
  | .illegalOp => 0x50
  | .illegalField => 0x51
  | .phase => 0x60
  | .phaseNotEmpty => 0x61
  | .capWords => 0x70
  | .capCount => 0x71

/-- The status `OK` (R170). -/
def statusOk : BitVec 8 := 0x00

/-- The status of a packet that does not decode (R78, R170). -/
def decodeErrorCode : DecodeError → ErrorCode
  | .illegalOp => .illegalOp
  | .illegalField => .illegalField

/-- `ERR` after an error of code `c`: it keeps the first code (R31). -/
def stickyErr (err : BitVec 8) (c : ErrorCode) : BitVec 8 :=
  if err = 0 then c.code else err

/-- The response packet: `STATUS` in bits 7:0, `R` in bits 255:128, zero between (R74). -/
def responsePacket (status : BitVec 8) (r : BitVec 128) : Packet :=
  r ++ (0 : BitVec 120) ++ status

/-- `STATUS` of a response packet (R74). -/
def responseStatus (q : Packet) : BitVec 8 := q.extractLsb' 0 8

/-- `R` of a response packet (R74). -/
def responseResult (q : Packet) : BitVec 128 := q.extractLsb' 128 128

/-- The value of the `PHASE` register (R26). -/
def Phase.code : Phase → BitVec 2
  | .raw => 0
  | .build => 1
  | .sealed => 2
  | .failed => 3

end Sys2Proof.Machine
end

