-- ==== Sys2Proof/Machine/Operands.lean ====
section
/-! DEFINITION. Arithmetic of operands and addresses: `ceil_div`, `bit_length`, `kderive` (R10, R110, R111), the two
layout engines (R112, R121 to R124) and the functions that select between them (R135). All on mathematical integers
(R100). -/

namespace Sys2Proof.Machine

/-- `ceil_div(a, b)` (R10). -/
def ceilDiv (a b : Nat) : Nat := (a + b - 1) / b

/-- The words a field of `w` bits at bit `s` needs (R93). -/
def wordsNeeded (s w : Nat) : Nat := ceilDiv (s + w) 32

/-- `bit_length(x)` (R110). -/
def bitLength (x : Nat) : Nat := if x = 0 then 0 else Nat.log2 x + 1

/-- `kderive(any, smax)`: the element width a list calls for (R111). -/
def kderive (any : Bool) (smax : Nat) : Nat :=
  if any then max 1 (bitLength smax) else 0

/-- The largest element width of a layout (R113, R120). -/
def kMax : Mode → Nat
  | .crossing => Config.wmax
  | .nonCrossing => Config.ncKmax

/-- `cstart(i, k)`: the start bit of element `i` of a crossing structure (R112). -/
def cstart (i k : Nat) : Nat := i * k

/-- `ncplace(pos, k)`: where the next element of a non-crossing structure goes (R121). -/
def ncplace (pos k : Nat) : Nat :=
  if pos % 32 + k > 32 then (pos / 32 + 1) * 32 else pos

/-- `ncstart(i, k)`: the start bit of element `i` of a non-crossing structure, in closed form (R123; assumption 12). -/
def ncstart (i k : Nat) : Nat := 32 * (i / (32 / k)) + k * (i % (32 / k))

/-- `ncpos(n, k)`: the cursor after `n` elements of a non-crossing structure (R124). -/
def ncpos (n k : Nat) : Nat :=
  match n with
  | 0 => 0
  | i + 1 => ncstart i k + k

/-- `c(i)` of R122: the cursor before element `i`, by replaying the cursor rule. -/
def ncReplayCursor (k : Nat) : Nat → Nat
  | 0 => 0
  | i + 1 => ncplace (ncReplayCursor k i) k + k

/-- `s(i)` of R122: the document's `start_bits[i]`. -/
def ncReplayStart (k i : Nat) : Nat := ncplace (ncReplayCursor k i) k

/-- `estart(mode, k, i)`: the start bit of element `i` (R135). -/
def estart (mode : Mode) (k i : Nat) : Nat :=
  match mode with
  | .crossing => cstart i k
  | .nonCrossing => ncstart i k

/-- `eplace(mode, k, pos)`: where the next element goes (R135). -/
def eplace (mode : Mode) (k pos : Nat) : Nat :=
  match mode with
  | .crossing => pos
  | .nonCrossing => ncplace pos k

/-- `epos(mode, k, n)`: the cursor after `n` elements (R135). -/
def epos (mode : Mode) (k n : Nat) : Nat :=
  match mode with
  | .crossing => n * k
  | .nonCrossing => ncpos n k

/-- The number of words, hence of chunks, that a field touches (R96, R115). -/
def wordsTouched (s w : Nat) : Nat :=
  if w = 0 then 0 else (s + w - 1) / 32 - s / 32 + 1

end Sys2Proof.Machine
end

