-- ==== Sys2Proof/Machine/Ops.lean ====
section
/-! DEFINITION. The shared operations: bytes, words and bits of the word array (R50 to R52, R90), `extend` (R93),
`unpack` and `pack` by sums and by the chunk loop (R92, R94, R96), the response of a command, the one way an error is
taken and the one way out of it (R174 to R178, R160), and taking the host's next action (R12, R190). -/

namespace Sys2Proof.Machine

/-! ## Bytes of the storage -/

/-- The byte at address `a`; an unlisted byte is 0. -/
def Memory.read (m : Memory) (a : Nat) : Byte :=
  match m with
  | [] => 0
  | c :: rest => if c.1 = a then c.2 else Memory.read rest a

/-- The storage with byte `a` holding `v`, canonical if it was: a zero byte is not listed. -/
def Memory.write (m : Memory) (a : Nat) (v : Byte) : Memory :=
  match m with
  | [] => if v = 0 then [] else [(a, v)]
  | c :: rest =>
    if a < c.1 then (if v = 0 then c :: rest else (a, v) :: c :: rest)
    else if a = c.1 then (if v = 0 then rest else (a, v) :: rest)
    else c :: Memory.write rest a v

/-- The storage below byte address `a`: every byte at or above it reads 0. -/
def Memory.below (m : Memory) (a : Nat) : Memory :=
  m.filter fun c => decide (c.1 < a)

/-! ## Words of the array (R23, R50, R52) -/

/-- The 32-bit quantity stored little-endian in bytes `4j .. 4j+3`. -/
def Memory.word (m : Memory) (j : Nat) : Word :=
  m.read (4 * j + 3) ++ m.read (4 * j + 2) ++ m.read (4 * j + 1) ++ m.read (4 * j)

/-- The storage with word `j` holding `w`. -/
def Memory.setWord (m : Memory) (j : Nat) (w : Word) : Memory :=
  (((m.write (4 * j) (w.extractLsb' 0 8)).write (4 * j + 1) (w.extractLsb' 8 8)).write
    (4 * j + 2) (w.extractLsb' 16 8)).write (4 * j + 3) (w.extractLsb' 24 8)

/-- `(j < LEN) ? W[j] : 0`: words at or above `LEN` do not exist and read 0 (R23, R96). -/
def State.word (s : State) (j : Nat) : Word :=
  if j < s.len.toNat then s.mem.word j else 0

/-- `bit(b)`: the stream bit `b` (R90). -/
def State.bit (s : State) (b : Nat) : Bool :=
  if b / 32 < s.len.toNat then (s.mem.word (b / 32)).getLsbD (b % 32) else false

/-- Byte `m` of the stored word array: stream bits `8m .. 8m+7` (R52); 0 beyond the array. -/
def State.byte (s : State) (m : Nat) : Byte :=
  if m / 4 < s.len.toNat then s.mem.read m else 0

/-- `extend(need)`: the array grows by zero words to `need` words; it never shrinks (R93). -/
def State.extend (s : State) (need : Nat) : State :=
  if need > s.len.toNat then
    { s with len := BitVec.ofNat 32 need, mem := s.mem.below (4 * s.len.toNat) }
  else s

/-! ## `unpack` and `pack` as sums and single bits: the normative result (R92, R94) -/

/-- `unpack(s, w)` as the sum of R92. -/
def State.unpackBits (s : State) (start : Nat) : Nat → Nat
  | 0 => 0
  | w + 1 => s.unpackBits start w + (s.bit (start + w)).toNat * 2 ^ w

/-- The storage with stream bit `b` set to `x` (R94). -/
def Memory.setBit (m : Memory) (b : Nat) (x : Bool) : Memory :=
  let bitMask : Word := (1 : Word) <<< (b % 32)
  m.setWord (b / 32) (if x then m.word (b / 32) ||| bitMask else m.word (b / 32) &&& ~~~bitMask)

/-- Stream bits `start .. start+w-1` set to the bits of `v` (the loop of R94). -/
def Memory.packBits (m : Memory) (start v : Nat) : Nat → Memory
  | 0 => m
  | w + 1 => (m.packBits start v w).setBit (start + w) (v.testBit w)

/-- `pack(s, v, w)` bit by bit (R94). -/
def State.packBits (s : State) (start v w : Nat) : State :=
  let e := s.extend (wordsNeeded start w)
  { e with mem := e.mem.packBits start v w }

/-! ## The chunk loop: the normative algorithm, and the one the machine runs (R96; assumption 11) -/

/-- The size of the chunk that starts `done` bits into a field (R96). -/
def chunkSize (start w done : Nat) : Nat := min (w - done) (32 - (start + done) % 32)

/-- `unpack_loop` (R96), with `fuel` bounding the number of chunks. -/
def State.unpackLoop (s : State) (start w : Nat) (fuel done result : Nat) : Nat :=
  match fuel with
  | 0 => result
  | fuel + 1 =>
    if done < w then
      let b := start + done
      let c := chunkSize start w done
      let chunk := ((s.word (b / 32)).toNat >>> (b % 32)) &&& (2 ^ c - 1)
      s.unpackLoop start w fuel (done + c) (result ||| (chunk <<< done))
    else result

/-- `unpack(s, w)`: the `w` bits of the word array from bit `start` up (R92), by the chunk loop. -/
def State.unpack (s : State) (start w : Nat) : Nat := s.unpackLoop start w w 0 0

/-- The word `old` with its `c` bits from bit `o` up replaced by the low bits of `x`: one chunk of R96. -/
def chunkWord (old : Word) (o c x : Nat) : Word :=
  let m : Word := BitVec.ofNat 32 (2 ^ c - 1) <<< o
  (old &&& ~~~m) ||| (BitVec.ofNat 32 (x &&& (2 ^ c - 1)) <<< o)

/-- `pack_loop` (R96), with `fuel` bounding the number of chunks. -/
def Memory.packLoop (m : Memory) (start v w : Nat) (fuel done : Nat) : Memory :=
  match fuel with
  | 0 => m
  | fuel + 1 =>
    if done < w then
      let b := start + done
      let c := chunkSize start w done
      (m.setWord (b / 32) (chunkWord (m.word (b / 32)) (b % 32) c (v >>> done))).packLoop
        start v w fuel (done + c)
    else m

/-- `pack(s, v, w)`: bits `start .. start+w-1` hold `v`, the array grown as needed (R94), by the chunk loop. -/
def State.pack (s : State) (start v w : Nat) : State :=
  let e := s.extend (wordsNeeded start w)
  { e with mem := e.mem.packLoop start v w w 0 }

/-! ## Responses and errors -/

/-- `respond(v)`: the command ends with status OK and result `r` (R11, R74). -/
def State.respond (s : State) (r : BitVec 128) : State :=
  { s with resp := some (responsePacket statusOk r) }

/-- A command ends with an error: the response carries the code and `R = 0`, and `ERR` keeps the first code; nothing
else changes (R174, R176). This is all there is of taking an exception: no saved state, no handler, no transfer of
control. -/
def State.failWith (s : State) (c : ErrorCode) : State :=
  { s with resp := some (responsePacket c.code 0), err := stickyErr s.err c }

/-- A `PUSH` ends with an error found after its phase test: the build is dead as well (R177). -/
def State.failBuild (s : State) (c : ErrorCode) : State :=
  { s.failWith c with phase := .failed }

/-- Every register and the word array at their reset values (R38, R160). This is also the one way out of an error and
of the phase FAILED, since nothing was saved that could be restored (R178). The constant `CAP` stays (R32). -/
def State.clearAll (s : State) : State :=
  { State.resetWith s.cap with port := s.port, resp := s.resp }

/-- Reset by the host: the reset state, and no response (R190). Actions the host has yet to take are the host's. -/
def State.hostReset (s : State) : State :=
  { State.resetWith s.cap with port := s.port }

/-! ## Taking the host's next action (R12, R194) -/

/-- The oldest action waiting at the port, and the state without it. -/
def State.takeAction (s : State) : Option (HostAction × State) :=
  match s.port with
  | [] => none
  | x :: rest => some (x, { s with port := rest })

/-- The state with an action placed where the next one is taken from. -/
def State.present (s : State) (x : HostAction) : State :=
  { s with port := x :: s.port }

/-- The value of a register, zero-extended to the result field (R162). -/
def State.csrValue (s : State) : Csr → BitVec 128
  | .phase => s.phase.code.setWidth 128
  | .mode => s.mode.code.setWidth 128
  | .k => s.k.setWidth 128
  | .n => s.n.setWidth 128
  | .len => s.len.setWidth 128
  | .pos => s.pos.setWidth 128
  | .smax => s.smax.setWidth 128
  | .sany => (BitVec.ofBool s.sany).setWidth 128
  | .err => s.err.setWidth 128
  | .wmax => BitVec.ofNat 128 Config.wmax
  | .cap => s.cap.setWidth 128

end Sys2Proof.Machine
end

