-- ==== Sys2Proof/Machine/Access.lean ====
section
/-! DEFINITION. Element access: `GET` and `SBIT` (R142, R143). -/

namespace Sys2Proof.Machine

/-- The start bit of element `i` of the structure in the block: `estart(MODE, K, i)` (R135). -/
def State.elementStart (s : State) (i : Nat) : Nat := estart s.mode s.k.toNat i

/-- The value of element `i`: `unpack(estart(MODE, K, i), K)` (R142). -/
def State.element (s : State) (i : Nat) : Nat := s.unpack (s.elementStart i) s.k.toNat

/-- `GET i`: read element `i` (R142). -/
def execGet (i : Int) (s : State) : Host.Outcome State Fault Refusal :=
  if s.phase ≠ .sealed then .next (s.failWith .phase)
  else if i < 0 ∨ i ≥ s.n.toNat then .next (s.failWith .range)
  else .next (s.respond (BitVec.ofNat 128 (s.element i.toNat)))

/-- `SBIT i`: the start bit of element `i` (R143). -/
def execSbit (i : Int) (s : State) : Host.Outcome State Fault Refusal :=
  if s.phase ≠ .sealed then .next (s.failWith .phase)
  else if i < 0 ∨ i ≥ s.n.toNat then .next (s.failWith .range)
  else .next (s.respond (BitVec.ofNat 128 (s.elementStart i.toNat)))

end Sys2Proof.Machine
end

