-- ==== Sys2Proof/Machine/Bitstream.lean ====
section
/-! DEFINITION. The bit-stream primitives `PACK` and `UNPACK` (R95, R97). -/

namespace Sys2Proof.Machine

/-- `PACK w, a, v`: write `v` into the `w` bits from bit `a` up, the checks in the order of R95. -/
def execPack (w a v : Int) (s : State) : Host.Outcome State Fault Refusal :=
  if s.phase ≠ .raw then .next (s.failWith .phase)
  else if w < 0 then .next (s.failWith .negWidth)
  else if w > Config.wmax then .next (s.failWith .widthMax)
  else if a < 0 then .next (s.failWith .negStart)
  else if v < 0 then .next (s.failWith .negValue)
  else if v ≥ 2 ^ w.toNat then .next (s.failWith .noFit)
  else if w = 0 then .next (s.respond 0)
  else if wordsNeeded a.toNat w.toNat > s.cap.toNat then .next (s.failWith .capWords)
  else .next ((s.pack a.toNat v.toNat w.toNat).respond 0)

/-- `UNPACK w, a`: answer the `w` bits from bit `a` up, the checks in the order of R97. -/
def execUnpack (w a : Int) (s : State) : Host.Outcome State Fault Refusal :=
  if s.phase ≠ .raw ∧ s.phase ≠ .sealed then .next (s.failWith .phase)
  else if w < 0 then .next (s.failWith .negWidth)
  else if w > Config.wmax then .next (s.failWith .widthMax)
  else if a < 0 then .next (s.failWith .negStart)
  else .next (s.respond (BitVec.ofNat 128 (s.unpack a.toNat w.toNat)))

end Sys2Proof.Machine
end

