-- ==== Sys2Proof/Machine/Build.lean ====
section
/-! DEFINITION. Width derivation, construction and adoption of a structure: `SCAN`, `BEGIN`, `BEGINA`, `PUSH`, `SEAL`,
`ATTACH` (R136 to R141). -/

namespace Sys2Proof.Machine

/-- `SCAN v`: fold `v` into the running maximum (R136). -/
def execScan (v : Int) (s : State) : Host.Outcome State Fault Refusal :=
  if s.phase ≠ .raw then .next (s.failWith .phase)
  else if v < 0 then .next (s.failWith .negValue)
  else if v ≥ 2 ^ Config.wmax then .next (s.failWith .widthMax)
  else .next ({ s with
    smax := BitVec.ofNat 64 (max s.smax.toNat v.toNat), sany := true }.respond 0)

/-- A build begins with layout `mode` and element width `k` (R137, R138). -/
def State.startBuild (s : State) (mode : Mode) (k : Nat) : State :=
  { s with mode := mode, k := BitVec.ofNat 16 k, n := 0, pos := 0, phase := .build }

/-- `BEGIN mode, k`: start a build with a width supplied by the host (R137). -/
def execBegin (mode : Mode) (k : Int) (s : State) : Host.Outcome State Fault Refusal :=
  if s.phase ≠ .raw then .next (s.failWith .phase)
  else if s.len ≠ 0 then .next (s.failWith .phaseNotEmpty)
  else if k < 0 then .next (s.failWith .negWidth)
  else if k > kMax mode then .next (s.failWith .widthMax)
  else .next ((s.startBuild mode k.toNat).respond 0)

/-- `BEGINA mode`: start a build with the width derived from the scan (R138). -/
def execBegina (mode : Mode) (s : State) : Host.Outcome State Fault Refusal :=
  if s.phase ≠ .raw then .next (s.failWith .phase)
  else if s.len ≠ 0 then .next (s.failWith .phaseNotEmpty)
  else if mode = .nonCrossing ∧ kderive s.sany s.smax.toNat > Config.ncKmax then
    .next (s.failWith .widthMax)
  else .next ((s.startBuild mode (kderive s.sany s.smax.toNat)).respond
    (BitVec.ofNat 128 (kderive s.sany s.smax.toNat)))

/-- The start bit of the element a `PUSH` places: `eplace(MODE, K, POS)` (R139). -/
def State.pushStart (s : State) : Nat := eplace s.mode s.k.toNat s.pos.toNat

/-- The effect of a successful `PUSH v`: the element is written, `POS` moves past it, `N` counts it (R139). -/
def State.placeElement (s : State) (v : Nat) : State :=
  { s.pack s.pushStart v s.k.toNat with
    pos := BitVec.ofNat 64 (s.pushStart + s.k.toNat), n := s.n + 1 }

/-- `PUSH v`: place the next element. Outside BUILD it fails like any command; every later check that fails also kills
the build (R139, R177). -/
def execPush (v : Int) (s : State) : Host.Outcome State Fault Refusal :=
  if s.phase ≠ .build then .next (s.failWith .phase)
  else if v < 0 then .next (s.failBuild .negValue)
  else if s.k = 0 then .next (s.failBuild .zeroK)
  else if v ≥ 2 ^ s.k.toNat then .next (s.failBuild .noFit)
  else if s.n.toNat = 2 ^ 32 - 1 then .next (s.failBuild .capCount)
  else if wordsNeeded s.pushStart s.k.toNat > s.cap.toNat then .next (s.failBuild .capWords)
  else .next ((s.placeElement v.toNat).respond 0)

/-- `SEAL`: end the build; the structure becomes read-only (R140). -/
def execSeal (s : State) : Host.Outcome State Fault Refusal :=
  if s.phase ≠ .build then .next (s.failWith .phase)
  else .next ({ s with phase := .sealed }.respond 0)

/-- `ATTACH mode, k, n`: adopt the raw word array as a structure of `n` elements of `k` bits (R141). -/
def execAttach (mode : Mode) (k n : Int) (s : State) : Host.Outcome State Fault Refusal :=
  if s.phase ≠ .raw then .next (s.failWith .phase)
  else if k < 0 then .next (s.failWith .negWidth)
  else if k > kMax mode then .next (s.failWith .widthMax)
  else if n < 0 ∨ n ≥ 2 ^ 32 then .next (s.failWith .count)
  else if k = 0 ∧ n > 0 then .next (s.failWith .zeroK)
  else .next ({ s with
    mode := mode, k := BitVec.ofNat 16 k.toNat, n := BitVec.ofNat 32 n.toNat,
    pos := BitVec.ofNat 64 (epos mode k.toNat n.toNat), phase := .sealed }.respond 0)

end Sys2Proof.Machine
end

