-- ==== Sys2Proof/Machine/SystemCmds.lean ====
section
/-! DEFINITION. The system commands `NOP`, `CLEAR`, `RDCSR` (R160 to R162). Accepted in every phase (R30). -/

namespace Sys2Proof.Machine

/-- `NOP` (R161). -/
def execNop (s : State) : Host.Outcome State Fault Refusal :=
  .next (s.respond 0)

/-- `CLEAR` (R160). -/
def execClear (s : State) : Host.Outcome State Fault Refusal :=
  .next (s.clearAll.respond 0)

/-- `RDCSR csr` (R162). -/
def execRdcsr (csr : Csr) (s : State) : Host.Outcome State Fault Refusal :=
  .next (s.respond (s.csrValue csr))

end Sys2Proof.Machine
end

