-- ==== Sys2Proof/Machine/Dispatch.lean ====
section
/-! DEFINITION. The meaning of every command (R76), one arm each. -/

namespace Sys2Proof.Machine

/-- A legal command, executed from start to end as one step (R12, R56). -/
def exec (i : Instr) (s : State) : Host.Outcome State Fault Refusal :=
  match i with
  | .nop => Sys2Proof.Machine.execNop s
  | .clear => Sys2Proof.Machine.execClear s
  | .rdcsr csr => Sys2Proof.Machine.execRdcsr csr s
  | .pack w a v => Sys2Proof.Machine.execPack w a v s
  | .unpack w a => Sys2Proof.Machine.execUnpack w a s
  | .scan v => Sys2Proof.Machine.execScan v s
  | .begin mode k => Sys2Proof.Machine.execBegin mode k s
  | .begina mode => Sys2Proof.Machine.execBegina mode s
  | .push v => Sys2Proof.Machine.execPush v s
  | .sealBuild => Sys2Proof.Machine.execSeal s
  | .attach mode k n => Sys2Proof.Machine.execAttach mode k n s
  | .get x => Sys2Proof.Machine.execGet x s
  | .sbit x => Sys2Proof.Machine.execSbit x s

end Sys2Proof.Machine
end

