-- ==== Sys2Proof/Machine/Step.lean ====
section
/-! DEFINITION. One step: the block takes the host's next action (R12, R190, R194). -/

namespace Sys2Proof.Machine

/-- A packet is decoded first and then executed; an illegal packet ends with its status (R78, R80). -/
def runPacket (p : Packet) (s : State) : Host.Outcome State Fault Refusal :=
  match decode p with
  | .ok i => exec i s
  | .error e => .next (s.failWith (decodeErrorCode e))

/-- One step of the machine. With no action at the port the block waits (R12, R190; assumption 3). -/
def step (s : State) : Host.Outcome State Fault Refusal :=
  match s.takeAction with
  | none => .next s
  | some (.packet p, s) => runPacket p s
  | some (.reset, s) => .next s.hostReset
  | some (.resetDuring _, s) => .next s.hostReset

/-- The state with the command packet whose low `nbits` bits are `w` presented next (assumption 6). -/
def State.withFetchWord (s : State) (nbits w : Nat) : State :=
  s.present (.packet (tableWordPacket nbits w))

end Sys2Proof.Machine
end

