-- ==== Sys2Proof/Machine/Assembly.lean ====
section
/-! DEFINITION. The assembler syntax in which the spec writes a command (R82, R83). The block knows nothing of it. -/

namespace Sys2Proof

/-- The name of a layout: `C` or `NC` (R83). -/
def Mode.asm : Mode → String
  | .crossing => "C"
  | .nonCrossing => "NC"

/-- The name of a register (R82). -/
def Csr.asm : Csr → String
  | .phase => "PHASE"
  | .mode => "MODE"
  | .k => "K"
  | .n => "N"
  | .len => "LEN"
  | .pos => "POS"
  | .smax => "SMAX"
  | .sany => "SANY"
  | .err => "ERR"
  | .wmax => "WMAX"
  | .cap => "CAP"

/-- The mnemonic of a command (R76). -/
def Instr.mnemonic : Instr → String
  | .nop => "NOP"
  | .clear => "CLEAR"
  | .rdcsr _ => "RDCSR"
  | .pack _ _ _ => "PACK"
  | .unpack _ _ => "UNPACK"
  | .scan _ => "SCAN"
  | .begin _ _ => "BEGIN"
  | .begina _ => "BEGINA"
  | .push _ => "PUSH"
  | .sealBuild => "SEAL"
  | .attach _ _ _ => "ATTACH"
  | .get _ => "GET"
  | .sbit _ => "SBIT"

/-- The operands of a command in the syntax of R82, numbers in decimal. -/
def Instr.operands : Instr → List String
  | .nop => []
  | .clear => []
  | .rdcsr c => [c.asm]
  | .pack w s v => [toString w, toString s, toString v]
  | .unpack w s => [toString w, toString s]
  | .scan v => [toString v]
  | .begin md k => [md.asm, toString k]
  | .begina md => [md.asm]
  | .push v => [toString v]
  | .sealBuild => []
  | .attach md k n => [md.asm, toString k, toString n]
  | .get i => [toString i]
  | .sbit i => [toString i]

/-- A command as the spec writes it: the mnemonic, then its operands separated by commas (R82). -/
def Instr.asm (i : Instr) : String :=
  if i.operands = [] then i.mnemonic else i.mnemonic ++ " " ++ String.intercalate ", " i.operands

end Sys2Proof
end

