-- ==== Sys2Proof/Machine/Pseudo.lean ====
section
/-! DEFINITION. The host's side: the pseudo-instructions, each a fixed list of commands (R84), and issuing a list
of commands at the port. The block knows nothing of these. -/

namespace Sys2Proof.Machine

/-- `FROM_LIST mode, [v0, ..]` (R84). -/
def fromList (mode : Mode) (vs : List Int) : List Instr :=
  .clear :: vs.map .scan ++ .begina mode :: vs.map .push ++ [.sealBuild]

/-- `FROM_LIST_K mode, k, [v0, ..]` (R84). -/
def fromListK (mode : Mode) (k : Int) (vs : List Int) : List Instr :=
  .clear :: .begin mode k :: vs.map .push ++ [.sealBuild]

/-- `GET_AT i` (R84). -/
def getAt (i : Int) : List Instr := [.get i]

/-- `TO_LIST`, the host having read `n` from the register `N` (R84). -/
def toList (n : Nat) : List Instr :=
  .rdcsr .n :: (List.range n).map fun (i : Nat) => .get i

/-- `DUMP_WORDS`, the host having read `l` from the register `LEN` (R84). -/
def dumpWords (l : Nat) : List Instr :=
  .rdcsr .len :: (List.range l).map fun (j : Nat) => .unpack 32 (32 * j)

/-- `PACK 32, 32*j, w` for the words from number `j` on (R84). -/
def loadWordsFrom (j : Nat) : List Word → List Instr
  | [] => []
  | w :: ws => .pack 32 (32 * j) w.toNat :: loadWordsFrom (j + 1) ws

/-- `LOAD_WORDS [w0, ..]` (R84). -/
def loadWords (ws : List Word) : List Instr := loadWordsFrom 0 ws

/-- `RELOAD mode, k, n, [w0, ..]` (R84). -/
def reload (mode : Mode) (k n : Int) (ws : List Word) : List Instr :=
  .clear :: loadWords ws ++ [.attach mode k n]

/-- The state with the packets of the given commands at the port, in order, and nothing else waiting. -/
def State.issue (s : State) (is : List Instr) : State :=
  { s with port := is.map fun i => .packet (encode i) }

/-- The words `W[0] .. W[LEN-1]` (R23). -/
def State.words (s : State) : List Word := (List.range s.len.toNat).map s.word

end Sys2Proof.Machine
end

