-- ==== Sys2Proof/Safety.lean ====
section
/-! DEFINITION. What a good state and a good run are: the invariants of R36, the phase table of R30, and the absence of
errors of R179. -/

namespace Sys2Proof.Machine

/-- Which phases accept a command (R30). `BEGIN` and `BEGINA` also need `LEN = 0`. -/
def acceptedIn (i : Instr) (ph : Phase) : Bool :=
  match i with
  | .nop => true
  | .clear => true
  | .rdcsr _ => true
  | .pack _ _ _ => ph == .raw
  | .unpack _ _ => ph == .raw || ph == .sealed
  | .scan _ => ph == .raw
  | .begin _ _ => ph == .raw
  | .begina _ => ph == .raw
  | .push _ => ph == .build
  | .sealBuild => ph == .build
  | .attach _ _ _ => ph == .raw
  | .get _ => ph == .sealed
  | .sbit _ => ph == .sealed

/-- The commands that may change the word array: `PACK` and `PUSH` write words, `CLEAR` makes it empty (R24, R25). -/
def mayWriteArray : Instr → Bool
  | .nop => false
  | .clear => true
  | .rdcsr _ => false
  | .pack _ _ _ => true
  | .unpack _ _ => false
  | .scan _ => false
  | .begin _ _ => false
  | .begina _ => false
  | .push _ => true
  | .sealBuild => false
  | .attach _ _ _ => false
  | .get _ => false
  | .sbit _ => false

/-- The state after a command that answers OK with result `r` and changes nothing else (R74). -/
def State.answered (s : State) (r : BitVec 128) : State :=
  { s with resp := some (responsePacket 0x00 r) }

/-- The state after a command that ends with status `code` (R31, R74, R176): the response carries the code and result 0,
`ERR` takes the code if it was 0, and nothing else changes. -/
def State.afterError (s : State) (code : BitVec 8) : State :=
  { s with resp := some (responsePacket code 0), err := if s.err = 0 then code else s.err }

/-- A `PACK` of `v` into `w` bits at bit `a` that passes every check of R95. -/
def State.packable (s : State) (a w v : Nat) : Prop :=
  s.phase = .raw ∧ w ≤ 64 ∧ v < 2 ^ w ∧ (0 < w → ceilDiv (a + w) 32 ≤ s.cap.toNat)

/-- A `PUSH` of `v` that passes every check of R139. -/
def State.pushable (s : State) (v : Nat) : Prop :=
  s.phase = .build ∧ s.k ≠ 0 ∧ v < 2 ^ s.k.toNat ∧ s.n.toNat < 2 ^ 32 - 1 ∧
    ceilDiv (eplace s.mode s.k.toNat s.pos.toNat + s.k.toNat) 32 ≤ s.cap.toNat

/-- The invariants of R36 that a single state can show, with those of R28, R29, R31 and of the storage. -/
structure State.Inv (s : State) : Prop where
  /-- `CAP_WORDS >= 1` (R7). -/
  cap_pos : s.cap ≠ 0
  /-- `LEN <= CAP_WORDS` (R36.1). -/
  len_le_cap : s.len.toNat ≤ s.cap.toNat
  /-- The storage has its canonical form. -/
  mem_wf : s.mem.wf
  /-- No byte beyond the array is represented (R23). -/
  mem_below : ∀ c ∈ s.mem, c.1 < 4 * s.len.toNat
  /-- `K` is legal for `MODE` (R27, R36.2). -/
  k_legal : s.k.toNat ≤ kMax s.mode
  /-- `K = 0` implies `N = 0` (R27, R36.2). -/
  zero_k : s.k = 0 → s.n = 0
  /-- In RAW there is no structure (R26, R36.3). -/
  raw_fields : s.phase = .raw → s.mode = .crossing ∧ s.k = 0 ∧ s.n = 0 ∧ s.pos = 0
  /-- `POS` is the cursor after `N` elements (R28, R36.4, R36.5). -/
  pos_eq : s.pos.toNat = epos s.mode s.k.toNat s.n.toNat
  /-- A build has exactly the words its cursor needs (R36.4). -/
  len_eq : s.phase = .build ∨ s.phase = .failed → s.len.toNat = ceilDiv s.pos.toNat 32
  /-- `SMAX` is 0 while nothing was scanned (R29). -/
  smax_zero : s.sany = false → s.smax = 0
  /-- `ERR` is 0 or a code that is raised (R31, R170). -/
  err_code : s.err = 0 ∨ ∃ c : ErrorCode, s.err = c.code
  /-- A failed build has left its mark in `ERR` (R177, R178). -/
  failed_err : s.phase = .failed → s.err ≠ 0

/-- Stream bit `b` belongs to an element of the structure. -/
def State.covered (s : State) (b : Nat) : Prop :=
  ∃ i < s.n.toNat, s.elementStart i ≤ b ∧ b < s.elementStart i + s.k.toNat

/-- Every bit that belongs to no element is 0 (R114, R127). -/
def State.paddingZero (s : State) : Prop := ∀ b, s.bit b = true → s.covered b

/-- The word array has exactly the words the structure's elements need, as a build leaves it (R36.4). -/
def State.builtSize (s : State) : Prop := s.len.toNat = ceilDiv s.pos.toNat 32

/-- No command has failed since the last `CLEAR` or reset (R31, R179). -/
def State.noError (s : State) : Prop := s.err = 0

end Sys2Proof.Machine
end

