-- ==== Sys2Proof/Certificates/Slice0/Obligations.lean ====
section
/-! DEFINITION. The statements about the block, for the provers. `answered`, `afterError`, `packable`, `pushable`, `Inv`
and the phase table are those of Safety.lean. Natural-number operands stand for the non-negative operands of a command;
the negative ones are in the statements about errors. -/

open Sys2Proof Sys2Proof.Machine

/-! ## Packets -/

/-- R73, R81: decoding the encoding of a well-formed command gives it back, every operand at every value. -/
def Obligations.DecodeAfterEncode : Prop :=
  ∀ i : Instr, i.wf = true → decode (encode i) = .ok i

/-- R73, R81: a packet that decodes is the one encoding of its command, and the command is well-formed. -/
def Obligations.EncodeAfterDecode : Prop :=
  ∀ (p : Packet) (i : Instr), decode p = .ok i → i.wf = true ∧ encode i = p

/-- R85: a row of the mask table admits exactly the packets that decode to its command. -/
def Obligations.DecoderFollowsMaskTable : Prop :=
  ∀ (p : Packet) (r : OpcodeRow), r ∈ opcodeRows →
    (r.admits p = true ↔ ∃ i, decode p = .ok i ∧ i.mnemonic = r.mnemonic)

/-- R78: the two causes of an illegal packet; the opcode is looked at first. -/
def Obligations.IllegalPacketsByCause : Prop :=
  ∀ p : Packet,
    (decode p = .error .illegalOp ↔
      p.op ∉ ([0x00, 0x01, 0x02, 0x10, 0x11, 0x20, 0x21, 0x22, 0x23, 0x24, 0x25, 0x30, 0x31] :
        List (BitVec 8))) ∧
    (decode p = .error .illegalField ↔
      p.op ∈ ([0x00, 0x01, 0x02, 0x10, 0x11, 0x20, 0x21, 0x22, 0x23, 0x24, 0x25, 0x30, 0x31] :
        List (BitVec 8)) ∧ ∀ r ∈ opcodeRows, r.admits p = false)

/-- R71: a packet is 32 bytes, byte `m` carrying bits `8m+7:8m`, and the bytes determine it. -/
def Obligations.PacketBytesLittleEndian : Prop :=
  (∀ p : Packet, (packetBytes p).length = 32 ∧ packetOfBytes (packetBytes p) = some p ∧
    ∀ m < 32, (packetBytes p)[m]? = some (p.extractLsb' (8 * m) 8)) ∧
  ∀ (bs : List Byte) (p : Packet), packetOfBytes bs = some p → packetBytes p = bs

/-- T1.1: words written out from the encoding decode to the commands they stand for. -/
def Obligations.SampleWordsDecode : Prop :=
  decode 0x402 = .ok (.rdcsr .len) ∧
  decode 0x00000000000000000000000000000ABC000000000000002400000000000C0010
    = .ok (.pack 12 36 0xABC) ∧
  decode 0x00000000000000000000000000000000000000000000000800000000000C0125
    = .ok (.attach .nonCrossing 12 8) ∧
  decode 0x8000000000000000000000000000000000000000000000000000000000000020
    = .ok (.scan (-0x80000000000000000000000000000000)) ∧
  decode 0x0000000000000000000000000000000000000000000000070000000000000031 = .ok (.sbit 7)

/-- R74: the layout of a response packet. -/
def Obligations.ResponseLayout : Prop :=
  ∀ (status : BitVec 8) (r : BitVec 128),
    (responsePacket status r).extractLsb' 0 8 = status ∧
    (responsePacket status r).extractLsb' 8 120 = 0 ∧
    (responsePacket status r).extractLsb' 128 128 = r

/-! ## The step -/

/-- R12, R78: a packet at the port that decodes to a command runs that command. The queue at the port, from which the
packet is taken, is the model's own field (assumption 2). -/
def Obligations.StepRunsDecodedCommand : Prop :=
  ∀ (s : State) (p : Packet) (rest : List HostAction) (i : Instr),
    s.port = .packet p :: rest → decode p = .ok i → step s = exec i { s with port := rest }

/-- R78, R176: an illegal packet answers `E_ILLEGAL_OP` or `E_ILLEGAL_FIELD` and changes nothing but `ERR`. The queue at
the port, from which the packet is taken, is the model's own field (assumption 2). -/
def Obligations.StepRejectsIllegalPacket : Prop :=
  ∀ (s : State) (p : Packet) (rest : List HostAction), s.port = .packet p :: rest →
    (decode p = .error .illegalOp →
      step s = .next (({ s with port := rest } : State).afterError 0x50)) ∧
    (decode p = .error .illegalField →
      step s = .next (({ s with port := rest } : State).afterError 0x51))

/-- R190: reset, also during a command, gives the reset state, whatever was before; the command in flight has no effect
and no response. Actions still waiting stay at the port (assumption 2), and the response field is none (assumption 4). -/
def Obligations.HostResetStep : Prop :=
  ∀ (s : State) (p : Packet) (rest : List HostAction),
    (s.port = .reset :: rest →
      step s = .next { State.resetWith s.cap with port := rest }) ∧
    (s.port = .resetDuring p :: rest →
      step s = .next { State.resetWith s.cap with port := rest })

/-- R38: every register and the word array after reset, for every `CAP_WORDS`. -/
def Obligations.ResetValues : Prop :=
  ∀ cap : BitVec 32,
    let s := State.resetWith cap
    s.phase = .raw ∧ s.mode = .crossing ∧ s.k = 0 ∧ s.n = 0 ∧ s.len = 0 ∧ s.pos = 0 ∧ s.smax = 0 ∧
    s.sany = false ∧ s.err = 0 ∧ (s.csrValue .wmax).toNat = 64 ∧ s.cap = cap ∧
    ∀ b, s.bit b = false

/-- R12, R190: a block with no action at its port waits unchanged. The model's own choice (assumption 3). -/
def Obligations.IdleBlockWaits : Prop :=
  ∀ s : State, s.port = [] → step s = .next s

/-- R74, R170, R197: every packet ends with one response: OK, or one of the fourteen codes with result 0. The queue at
the port and the field that holds the response are the model's own (assumptions 2 and 4). -/
def Obligations.EveryPacketGetsOneResponse : Prop :=
  ∀ (s : State) (p : Packet) (rest : List HostAction), s.port = .packet p :: rest →
    ∃ (t : State) (st : BitVec 8) (r : BitVec 128), step s = .next t ∧ t.port = rest ∧
      t.resp = some (responsePacket st r) ∧
      (st = 0x00 ∨ r = 0 ∧ st ∈ ([0x10, 0x11, 0x12, 0x13, 0x14, 0x15, 0x16, 0x20, 0x50, 0x51, 0x60,
        0x61, 0x70, 0x71] : List (BitVec 8)))

/-! ## What each command does when it completes -/

/-- R161: `NOP` is accepted in every phase, answers OK and changes nothing; the all-zero packet is `NOP`. -/
def Obligations.NopDoesNothing : Prop :=
  decode 0 = .ok .nop ∧ ∀ s : State, exec .nop s = .next (s.answered 0)

/-- R160: `CLEAR` gives the reset state from every state. The actions still waiting at the port are the model's own field
and stay (assumption 2). -/
def Obligations.ClearGivesResetState : Prop :=
  ∀ s : State,
    exec .clear s = .next (({ State.resetWith s.cap with port := s.port } : State).answered 0)

/-- R162: `RDCSR` answers the register and changes nothing, in every phase. -/
def Obligations.RdcsrAnswersRegister : Prop :=
  ∀ (s : State) (c : Csr), ∃ r : BitVec 128, exec (.rdcsr c) s = .next (s.answered r) ∧
    r.toNat = (match c with
      | .phase => (match s.phase with | .raw => 0 | .build => 1 | .sealed => 2 | .failed => 3)
      | .mode => (match s.mode with | .crossing => 0 | .nonCrossing => 1)
      | .k => s.k.toNat
      | .n => s.n.toNat
      | .len => s.len.toNat
      | .pos => s.pos.toNat
      | .smax => s.smax.toNat
      | .sany => (if s.sany then 1 else 0)
      | .err => s.err.toNat
      | .wmax => 64
      | .cap => s.cap.toNat)

/-- R94, R95: `PACK` writes `v` into the `w` bits from bit `a` up, grows the array as needed, and changes no other bit
and no other register. A `PACK` of width 0 changes nothing. -/
def Obligations.PackWritesField : Prop :=
  ∀ (s : State) (a w v : Nat), s.mem.wf → s.packable a w v →
    (w = 0 → exec (.pack w a v) s = .next (s.answered 0)) ∧
    (0 < w → ∃ (len : BitVec 32) (mem : Memory),
      exec (.pack w a v) s = .next (({ s with len := len, mem := mem } : State).answered 0) ∧
      len.toNat = max s.len.toNat (ceilDiv (a + w) 32) ∧ mem.wf ∧
      ∀ b, ({ s with len := len, mem := mem } : State).bit b =
        if a ≤ b ∧ b < a + w then v.testBit (b - a) else s.bit b)

/-- R92, R97: `UNPACK` answers the `w` bits from bit `a` up, in RAW and SEALED, and changes nothing. -/
def Obligations.UnpackAnswersField : Prop :=
  ∀ (s : State) (a w : Nat), s.phase = .raw ∨ s.phase = .sealed → w ≤ 64 →
    ∃ r : BitVec 128, exec (.unpack w a) s = .next (s.answered r) ∧
      r.toNat = s.unpackBits a w ∧ ∀ t, r.getLsbD t = (decide (t < w) && s.bit (a + t))

/-- R136: `SCAN` folds the value into the running maximum and changes nothing else. -/
def Obligations.ScanFoldsMaximum : Prop :=
  ∀ (s : State) (v : Nat), s.phase = .raw → v < 2 ^ 64 →
    ∃ m : BitVec 64, m.toNat = max s.smax.toNat v ∧
      exec (.scan v) s = .next (({ s with smax := m, sany := true } : State).answered 0)

/-- R137: `BEGIN` starts an empty build with the given layout and width. -/
def Obligations.BeginStartsBuild : Prop :=
  ∀ (s : State) (md : Mode) (k : Nat), s.phase = .raw → s.len = 0 →
    k ≤ (match md with | .crossing => 64 | .nonCrossing => 32) →
    ∃ kr : BitVec 16, kr.toNat = k ∧ exec (.begin md k) s = .next
      (({ s with mode := md, k := kr, n := 0, pos := 0, phase := .build } : State).answered 0)

/-- R138: `BEGINA` starts an empty build with the derived width and answers that width. -/
def Obligations.BeginaStartsBuild : Prop :=
  ∀ (s : State) (md : Mode), s.phase = .raw → s.len = 0 →
    (md = .nonCrossing → kderive s.sany s.smax.toNat ≤ 32) →
    ∃ (kr : BitVec 16) (r : BitVec 128), kr.toNat = kderive s.sany s.smax.toNat ∧
      r.toNat = kderive s.sany s.smax.toNat ∧ exec (.begina md) s = .next
        (({ s with mode := md, k := kr, n := 0, pos := 0, phase := .build } : State).answered r)

/-- R139: `PUSH` writes the value into the `K` bits from `eplace(MODE, K, POS)` up, moves `POS` past them, counts the
element, grows the array as needed, and changes no other bit and no other register. -/
def Obligations.PushPlacesElement : Prop :=
  ∀ (s : State) (v : Nat), s.mem.wf → s.pushable v →
    ∃ (len : BitVec 32) (mem : Memory) (pos : BitVec 64),
      exec (.push v) s = .next
        (({ s with len := len, mem := mem, pos := pos, n := s.n + 1 } : State).answered 0) ∧
      pos.toNat = eplace s.mode s.k.toNat s.pos.toNat + s.k.toNat ∧
      len.toNat = max s.len.toNat (ceilDiv pos.toNat 32) ∧ mem.wf ∧
      ∀ b, ({ s with len := len, mem := mem } : State).bit b =
        if eplace s.mode s.k.toNat s.pos.toNat ≤ b ∧ b < pos.toNat then
          v.testBit (b - eplace s.mode s.k.toNat s.pos.toNat)
        else s.bit b

/-- R140: `SEAL` takes BUILD to SEALED and changes nothing else. -/
def Obligations.SealEndsBuild : Prop :=
  ∀ s : State, s.phase = .build →
    exec .sealBuild s = .next (({ s with phase := .sealed } : State).answered 0)

/-- R141: `ATTACH` makes the raw array a structure; the words and `LEN` are neither changed nor examined. -/
def Obligations.AttachAdoptsArray : Prop :=
  ∀ (s : State) (md : Mode) (k n : Nat), s.phase = .raw →
    k ≤ (match md with | .crossing => 64 | .nonCrossing => 32) → n < 2 ^ 32 → (k = 0 → n = 0) →
    ∃ (kr : BitVec 16) (nr : BitVec 32) (pr : BitVec 64),
      kr.toNat = k ∧ nr.toNat = n ∧ pr.toNat = epos md k n ∧ exec (.attach md k n) s = .next
        (({ s with mode := md, k := kr, n := nr, pos := pr, phase := .sealed } : State).answered 0)

/-- R142: `GET` answers the `K` bits from the element's start bit up and changes nothing. -/
def Obligations.GetAnswersElement : Prop :=
  ∀ (s : State) (i : Nat), s.phase = .sealed → i < s.n.toNat → s.k.toNat ≤ 64 →
    ∃ r : BitVec 128, exec (.get i) s = .next (s.answered r) ∧
      r.toNat = s.unpackBits (estart s.mode s.k.toNat i) s.k.toNat

/-- R143: `SBIT` answers the element's start bit and changes nothing. -/
def Obligations.SbitAnswersStartBit : Prop :=
  ∀ (s : State) (i : Nat), s.phase = .sealed → i < s.n.toNat →
    ∃ r : BitVec 128, exec (.sbit i) s = .next (s.answered r) ∧
      r.toNat = (match s.mode with
        | .crossing => i * s.k.toNat
        | .nonCrossing => 32 * (i / (32 / s.k.toNat)) + s.k.toNat * (i % (32 / s.k.toNat)))

/-- R143: `GET i` answers what `UNPACK K, (SBIT i)` answers. -/
def Obligations.GetEqualsUnpackAtSbit : Prop :=
  ∀ (s : State) (i : Nat), s.phase = .sealed → i < s.n.toNat → s.k.toNat ≤ 64 →
    ∃ r : BitVec 128, exec (.sbit i) s = .next (s.answered r) ∧
      exec (.get i) s = exec (.unpack s.k.toNat r.toNat) s

/-! ## How commands fail -/

/-- R95, R97, R175: the errors of `PACK` and `UNPACK`, each with the conditions under which it is the first. -/
def Obligations.BitstreamErrors : Prop :=
  ∀ (s : State) (w a v : Int),
    (s.phase = .raw →
      (w < 0 → exec (.pack w a v) s = .next (s.afterError 0x12)) ∧
      (64 < w → exec (.pack w a v) s = .next (s.afterError 0x13)) ∧
      (0 ≤ w → w ≤ 64 →
        (a < 0 → exec (.pack w a v) s = .next (s.afterError 0x14)) ∧
        (0 ≤ a → v < 0 → exec (.pack w a v) s = .next (s.afterError 0x10)) ∧
        (0 ≤ a → 2 ^ w.toNat ≤ v → exec (.pack w a v) s = .next (s.afterError 0x11)) ∧
        (0 ≤ a → 0 ≤ v → v < 2 ^ w.toNat → 0 < w → s.cap.toNat < ceilDiv (a + w).toNat 32 →
          exec (.pack w a v) s = .next (s.afterError 0x70)))) ∧
    (s.phase = .raw ∨ s.phase = .sealed →
      (w < 0 → exec (.unpack w a) s = .next (s.afterError 0x12)) ∧
      (64 < w → exec (.unpack w a) s = .next (s.afterError 0x13)) ∧
      (0 ≤ w → w ≤ 64 → a < 0 → exec (.unpack w a) s = .next (s.afterError 0x14)))

/-- R136, R137, R138, R175: the errors of `SCAN`, `BEGIN` and `BEGINA` in phase RAW. -/
def Obligations.BuildStartErrors : Prop :=
  ∀ (s : State) (md : Mode) (k v : Int), s.phase = .raw →
    (v < 0 → exec (.scan v) s = .next (s.afterError 0x10)) ∧
    (2 ^ 64 ≤ v → exec (.scan v) s = .next (s.afterError 0x13)) ∧
    (s.len ≠ 0 → exec (.begin md k) s = .next (s.afterError 0x61) ∧
      exec (.begina md) s = .next (s.afterError 0x61)) ∧
    (s.len = 0 →
      (k < 0 → exec (.begin md k) s = .next (s.afterError 0x12)) ∧
      ((match md with | .crossing => 64 | .nonCrossing => 32) < k →
        exec (.begin md k) s = .next (s.afterError 0x13)) ∧
      (32 < kderive s.sany s.smax.toNat →
        exec (.begina .nonCrossing) s = .next (s.afterError 0x13)))

/-- R139, R175, R177: the errors of `PUSH` in phase BUILD; each also takes the phase to FAILED. -/
def Obligations.PushErrorsKillBuild : Prop :=
  ∀ (s : State) (v : Int), s.phase = .build →
    let dead (code : BitVec 8) : State := { s.afterError code with phase := .failed }
    (v < 0 → exec (.push v) s = .next (dead 0x10)) ∧
    (0 ≤ v → s.k = 0 → exec (.push v) s = .next (dead 0x15)) ∧
    (s.k ≠ 0 → 2 ^ s.k.toNat ≤ v → exec (.push v) s = .next (dead 0x11)) ∧
    (0 ≤ v → s.k ≠ 0 → v < 2 ^ s.k.toNat →
      (s.n.toNat = 2 ^ 32 - 1 → exec (.push v) s = .next (dead 0x71)) ∧
      (s.n.toNat < 2 ^ 32 - 1 →
        s.cap.toNat < ceilDiv (eplace s.mode s.k.toNat s.pos.toNat + s.k.toNat) 32 →
        exec (.push v) s = .next (dead 0x70)))

/-- R141, R142, R143, R175: the errors of `ATTACH` in RAW, and of `GET` and `SBIT` in SEALED. -/
def Obligations.StructureErrors : Prop :=
  ∀ (s : State) (md : Mode) (k n i : Int),
    (s.phase = .raw →
      (k < 0 → exec (.attach md k n) s = .next (s.afterError 0x12)) ∧
      ((match md with | .crossing => 64 | .nonCrossing => 32) < k →
        exec (.attach md k n) s = .next (s.afterError 0x13)) ∧
      (0 ≤ k → k ≤ (match md with | .crossing => 64 | .nonCrossing => 32) →
        (n < 0 ∨ 2 ^ 32 ≤ n → exec (.attach md k n) s = .next (s.afterError 0x16)) ∧
        (k = 0 → 0 < n → n < 2 ^ 32 → exec (.attach md k n) s = .next (s.afterError 0x15)))) ∧
    (s.phase = .sealed → i < 0 ∨ (s.n.toNat : Int) ≤ i →
      exec (.get i) s = .next (s.afterError 0x20) ∧
      exec (.sbit i) s = .next (s.afterError 0x20))

/-! ## Rules about all commands -/

/-- R30: a command the phase does not accept answers `E_PHASE` and changes nothing but `ERR`; an accepted one never
answers `E_PHASE`; `BEGIN` and `BEGINA` in RAW over a non-empty array answer `E_PHASE_NOTEMPTY`. -/
def Obligations.PhaseTable : Prop :=
  ∀ (i : Instr) (s : State),
    (acceptedIn i s.phase = false → exec i s = .next (s.afterError 0x60)) ∧
    (acceptedIn i s.phase = true → ∀ (t : State) (q : Packet), exec i s = .next t →
      t.resp = some q → responseStatus q ≠ 0x60) ∧
    (s.phase = .raw → s.len ≠ 0 → i.mnemonic = "BEGIN" ∨ i.mnemonic = "BEGINA" →
      exec i s = .next (s.afterError 0x61))

/-- R176, R177: a packet that ends with a non-zero status changes nothing but the response and `ERR`, and takes BUILD to
FAILED when it is a `PUSH`. -/
def Obligations.FailingCommandChangesOnlyErr : Prop :=
  ∀ (p : Packet) (s t : State) (q : Packet), runPacket p s = .next t → t.resp = some q →
    responseStatus q ≠ 0 →
    responseResult q = 0 ∧
    t.err = (if s.err = 0 then responseStatus q else s.err) ∧
    t = { s with resp := some q, err := t.err, phase := t.phase } ∧
    ((∃ v, decode p = .ok (.push v)) ∧ s.phase = .build → t.phase = .failed) ∧
    (¬((∃ v, decode p = .ok (.push v)) ∧ s.phase = .build) → t.phase = s.phase)

/-- R31: `ERR` keeps the first non-zero status since the last `CLEAR` or reset. -/
def Obligations.ErrKeepsFirstError : Prop :=
  (∀ cap, (State.resetWith cap).err = 0) ∧ (∀ s : State, s.hostReset.err = 0) ∧
  ∀ (p : Packet) (s t : State), runPacket p s = .next t →
    (decode p = .ok .clear → t.err = 0) ∧
    (decode p ≠ .ok .clear → ∀ q, t.resp = some q →
      t.err = if s.err = 0 then responseStatus q else s.err)

/-- R26: the transitions of `PHASE`, and no others. -/
def Obligations.PhaseTransitions : Prop :=
  ∀ (i : Instr) (s t : State), exec i s = .next t →
    t.phase = s.phase ∨
    (i = .clear ∧ t.phase = .raw) ∨
    ((∃ md k, i = .begin md k) ∧ s.phase = .raw ∧ t.phase = .build) ∨
    ((∃ md, i = .begina md) ∧ s.phase = .raw ∧ t.phase = .build) ∨
    (i = .sealBuild ∧ s.phase = .build ∧ t.phase = .sealed) ∨
    ((∃ md k n, i = .attach md k n) ∧ s.phase = .raw ∧ t.phase = .sealed) ∨
    ((∃ v, i = .push v) ∧ s.phase = .build ∧ t.phase = .failed)

/-- R24, R25: only `PACK` and `PUSH` write words, none in SEALED or FAILED, and `LEN` falls by `CLEAR` alone. -/
def Obligations.ArrayWrittenByPackAndPushOnly : Prop :=
  ∀ (i : Instr) (s t : State), exec i s = .next t →
    (mayWriteArray i = false → t.len = s.len ∧ t.mem = s.mem) ∧
    (s.phase = .sealed ∨ s.phase = .failed → i ≠ .clear → t.len = s.len ∧ t.mem = s.mem) ∧
    (i ≠ .clear → s.len.toNat ≤ t.len.toNat)

/-- R99: `UNPACK`, `GET`, `SBIT` and `RDCSR` are pure: a successful one leaves the state as it was, a failing one changes
only `ERR`; the response is the answer and no state of the block. -/
def Obligations.ReadsArePure : Prop :=
  ∀ (i : Instr) (s t : State) (q : Packet),
    (∃ w a, i = .unpack w a) ∨ (∃ x, i = .get x) ∨ (∃ x, i = .sbit x) ∨ (∃ c, i = .rdcsr c) →
    exec i s = .next t → t.resp = some q →
    (responseStatus q = 0 → t = { s with resp := some q }) ∧
    (responseStatus q ≠ 0 → t = { s with resp := some q, err := t.err })

/-- R32: no step changes the constants `WMAX` and `CAP`, not even a reset. -/
def Obligations.ConstantsNeverChange : Prop :=
  ∀ s t : State, step s = .next t →
    t.cap = s.cap ∧ t.csrValue .cap = s.csrValue .cap ∧ (t.csrValue .wmax).toNat = 64

/-- R199: what a command does depends on the registers and the word array alone: not on the response last given, nor on
what else waits at the port. -/
def Obligations.CommandIgnoresPort : Prop :=
  ∀ (i : Instr) (s t : State) (q : Option Packet) (port : List HostAction), exec i s = .next t →
    exec i { s with resp := q, port := port } = .next { t with port := port }

/-! ## Width derivation and layouts -/

/-- R110: `bit_length`, with the rule's examples. -/
def Obligations.BitLengthIsBinaryDigits : Prop :=
  bitLength 0 = 0 ∧
  (∀ x, 0 < x → 1 ≤ bitLength x ∧ 2 ^ (bitLength x - 1) ≤ x ∧ x < 2 ^ bitLength x) ∧
  bitLength 1 = 1 ∧ bitLength 2 = 2 ∧ bitLength 255 = 8 ∧ bitLength 256 = 9 ∧
  bitLength 4095 = 12 ∧ bitLength (2 ^ 64 - 1) = 64

/-- R111: the derived width is 0 for the empty list, else the least width from 1 up in which every value fits. -/
def Obligations.KderiveIsLeastWidth : Prop :=
  ∀ smax : Nat, kderive false smax = 0 ∧ kderive true smax = max 1 (bitLength smax) ∧
    kderive true 0 = 1 ∧ 1 ≤ kderive true smax ∧
    (∀ v ≤ smax, v < 2 ^ kderive true smax) ∧
    ∀ k, 1 ≤ k → (∀ v ≤ smax, v < 2 ^ k) → kderive true smax ≤ k

/-- R121: where the next non-crossing element goes; "exceed" is strict, an aligned cursor never advances. -/
def Obligations.NcplaceAvoidsStraddling : Prop :=
  ∀ pos k : Nat, 1 ≤ k → k ≤ 32 →
    ncplace pos k = (if pos % 32 + k > 32 then (pos / 32 + 1) * 32 else pos) ∧
    pos ≤ ncplace pos k ∧ ncplace pos k % 32 + k ≤ 32 ∧
    (∀ q, pos ≤ q → q % 32 + k ≤ 32 → ncplace pos k ≤ q) ∧
    (pos % 32 = 0 → ncplace pos k = pos)

/-- R122, R123, R124: the closed forms agree with replaying the cursor rule. -/
def Obligations.NoncrossingClosedFormIsReplay : Prop :=
  ∀ k : Nat, 1 ≤ k → k ≤ 32 → ∀ i : Nat,
    ncstart i k = ncReplayStart k i ∧ ncpos i k = ncReplayCursor k i

/-- R125: non-crossing elements do not straddle words, lie in word `i div epw`, are strictly increasing and disjoint, and
lie where the crossing layout puts them exactly when `k` divides 32; else each full word has padding. -/
def Obligations.NoncrossingLayoutInvariants : Prop :=
  ∀ k : Nat, 1 ≤ k → k ≤ 32 →
    (∀ i, ncstart i k % 32 + k ≤ 32 ∧ ncstart i k / 32 = i / (32 / k)) ∧
    (∀ i, ncstart i k + k ≤ ncstart (i + 1) k ∧ ncstart i k < ncstart (i + 1) k) ∧
    ((∀ i, ncstart i k = i * k) ↔ k ∈ [1, 2, 4, 8, 16, 32]) ∧
    (k ∉ [1, 2, 4, 8, 16, 32] → 1 ≤ 32 - k * (32 / k) ∧ 32 - k * (32 / k) < k)

/-- R126: the size of a non-crossing structure, and bounds on its addresses. -/
def Obligations.NoncrossingSize : Prop :=
  ∀ k : Nat, 1 ≤ k → k ≤ 32 → ∀ n : Nat,
    ceilDiv (ncpos n k) 32 = ceilDiv n (32 / k) ∧ ncstart n k ≤ 32 * n ∧ ncpos n k ≤ 32 * n

/-- R112, R135: placing one element after another goes through the start bits, in both layouts. -/
def Obligations.CursorMeetsElementStarts : Prop :=
  ∀ (md : Mode) (k : Nat), 1 ≤ k → k ≤ kMax md →
    epos md k 0 = 0 ∧ ∀ n : Nat,
      eplace md k (epos md k n) = estart md k n ∧ epos md k (n + 1) = estart md k n + k

/-! ## The word array -/

/-- R50, R52: stream bit `b` is bit `b mod 32` of word `b div 32`, and bit `b mod 8` of stored byte `b div 8`. -/
def Obligations.BitsOfWordsAndBytes : Prop :=
  ∀ (s : State) (b : Nat),
    s.bit b = (s.word (b / 32)).getLsbD (b % 32) ∧ s.bit b = (s.byte (b / 8)).getLsbD (b % 8)

/-- R96: the chunk loops have exactly the results of the sums of R92 and R94. -/
def Obligations.ChunkLoopsEqualSums : Prop :=
  (∀ (s : State) (a w : Nat), s.unpack a w = s.unpackBits a w) ∧
  ∀ (s : State) (a w v : Nat), s.mem.wf → ceilDiv (a + w) 32 < 2 ^ 32 →
    s.pack a v w = s.packBits a v w

/-- R96, R197: the chunk loops end after one chunk for each word the field touches: at most two when `w <= 32`, at most
three when `w <= 64`. -/
def Obligations.OneChunkPerWordTouched : Prop :=
  ∀ (a w : Nat),
    (∀ s : State, s.unpackLoop a w (wordsTouched a w) 0 0 = s.unpack a w) ∧
    (∀ (m : Memory) (v : Nat), m.packLoop a v w (wordsTouched a w) 0 = m.packLoop a v w w 0) ∧
    (w ≤ 32 → wordsTouched a w ≤ 2) ∧ (w ≤ 64 → wordsTouched a w ≤ 3)

/-- R98.1, R98.2: what `PACK` stored reads back, and every field that does not overlap reads as before. -/
def Obligations.PackReadsBack : Prop :=
  ∀ (s : State) (a w v : Nat), s.mem.wf → s.packable a w v →
    ∃ t : State, exec (.pack w a v) s = .next t ∧
      exec (.unpack w a) t = .next (t.answered (BitVec.ofNat 128 v)) ∧
      ∀ a' w' : Nat, w' ≤ 64 → a' + w' ≤ a ∨ a + w ≤ a' → ∀ u : State,
        exec (.unpack w' a') s = .next u → exec (.unpack w' a') t = .next { t with resp := u.resp }

/-- R98.3, R98.5: the result of `PACK` does not depend on what its field held before, and repeating it changes nothing
further. -/
def Obligations.PackOverwrites : Prop :=
  ∀ (s : State) (mem : Memory) (a w v : Nat), s.Inv → ({ s with mem := mem } : State).Inv →
    s.packable a w v →
    (∀ b, b < a ∨ a + w ≤ b → ({ s with mem := mem } : State).bit b = s.bit b) →
    0 < w →
    exec (.pack w a v) { s with mem := mem } = exec (.pack w a v) s ∧
    ∀ t, exec (.pack w a v) s = .next t → exec (.pack w a v) t = .next t

/-- R98.6: two `PACK`s on fields that do not overlap give the same final state in either order. -/
def Obligations.PacksCommute : Prop :=
  ∀ (s : State) (a w v a' w' v' : Nat), s.Inv → s.packable a w v → s.packable a' w' v' →
    a + w ≤ a' ∨ a' + w' ≤ a →
    ∃ t t' u : State, exec (.pack w a v) s = .next t ∧ exec (.pack w' a' v') s = .next t' ∧
      exec (.pack w' a' v') t = .next u ∧ exec (.pack w a v) t' = .next u

/-! ## Invariants -/

/-- R36: every step keeps the invariants. -/
def Obligations.StepKeepsInvariants : Prop :=
  ∀ s t : State, s.Inv → step s = .next t → t.Inv

/-- R36, R38: the reset state meets the invariants, for every legal `CAP_WORDS`. -/
def Obligations.ResetMeetsInvariants : Prop :=
  ∀ cap : BitVec 32, cap ≠ 0 → (State.resetWith cap).Inv ∧ (State.resetWith cap).paddingZero

/-- R36.4, R114, R127: during a build, and in the structure its `SEAL` leaves, every bit that belongs to no element is 0
and the array has just the words the elements need. -/
def Obligations.BuildKeepsPaddingZero : Prop :=
  ∀ s t : State, s.Inv → (s.phase = .build ∨ s.phase = .failed → s.paddingZero) →
    step s = .next t →
    (t.phase = .build ∨ t.phase = .failed → t.paddingZero) ∧
    (s.phase = .build → t.phase = .sealed → t.paddingZero ∧ t.builtSize)

/-- R36.6, R139: a `PUSH` makes its value the next element, at the start bit of that index, and keeps every earlier
element. -/
def Obligations.PushKeepsEarlierElements : Prop :=
  ∀ (s : State) (v : Nat), s.Inv → s.pushable v →
    ∃ t : State, exec (.push v) s = .next t ∧ t.n.toNat = s.n.toNat + 1 ∧
      s.pushStart = t.elementStart s.n.toNat ∧ t.element s.n.toNat = v ∧
      ∀ i < s.n.toNat, t.element i = s.element i

/-! ## Headline results -/

/-- R145: a list of values that fit, given to the block as `FROM_LIST`, is built without an error with the derived width,
and `GET i` answers its `i`-th value. `maximum` is 0 for the empty list. -/
def Obligations.RoundTripDerivedWidth : Prop :=
  ∀ (s : State) (md : Mode) (vs : List Nat),
    (∀ v ∈ vs, v < 2 ^ (match md with | .crossing => 64 | .nonCrossing => 32)) →
    vs.length < 2 ^ 32 →
    ceilDiv (epos md (kderive (!vs.isEmpty) (vs.foldr max 0)) vs.length) 32 ≤ s.cap.toNat →
    let is := fromList md (vs.map fun (v : Nat) => (v : Int))
    ∃ t : State, Sys2Proof.core.run is.length (s.issue is) = .next t ∧
      t.phase = .sealed ∧ t.mode = md ∧ t.n.toNat = vs.length ∧
      t.k.toNat = kderive (!vs.isEmpty) (vs.foldr max 0) ∧ t.noError ∧
      ∀ (i v : Nat), vs[i]? = some v → exec (.get i) t = .next (t.answered (BitVec.ofNat 128 v))

/-- R145: the same with a width the host supplies, as `FROM_LIST_K`. -/
def Obligations.RoundTripSuppliedWidth : Prop :=
  ∀ (s : State) (md : Mode) (k : Nat) (vs : List Nat),
    k ≤ (match md with | .crossing => 64 | .nonCrossing => 32) → (vs ≠ [] → 1 ≤ k) →
    (∀ v ∈ vs, v < 2 ^ k) → vs.length < 2 ^ 32 →
    ceilDiv (epos md k vs.length) 32 ≤ s.cap.toNat →
    let is := fromListK md k (vs.map fun (v : Nat) => (v : Int))
    ∃ t : State, Sys2Proof.core.run is.length (s.issue is) = .next t ∧
      t.phase = .sealed ∧ t.mode = md ∧ t.n.toNat = vs.length ∧ t.k.toNat = k ∧ t.noError ∧
      ∀ (i v : Nat), vs[i]? = some v → exec (.get i) t = .next (t.answered (BitVec.ofNat 128 v))

/-- R146: `RELOAD` with the registers and words of a sealed structure gives the same structure and the same words; only
the scan accumulators, `ERR` and the response are new. -/
def Obligations.ReloadRestoresStructure : Prop :=
  ∀ s : State, s.Inv → s.phase = .sealed →
    let is := reload s.mode s.k.toNat s.n.toNat s.words
    Sys2Proof.core.run is.length (s.issue is) =
      .next (({ s with smax := 0, sany := false, err := 0, port := [] } : State).answered 0)
end

