-- ==== Sys2Proof/Laws/Memory.lean ====
section
/-! SUPPORT. The laws of the storage: reading after writing, the canonical form kept by every operation, and equality of
storages that read the same. -/

namespace Sys2Proof.Machine

theorem Memory.wf_nil : Memory.wf [] := by simp [Memory.wf]

theorem Memory.wf_cons {c : Host.Cell} {m : Memory} :
    Memory.wf (c :: m) ↔ (∀ d ∈ m, c.1 < d.1) ∧ c.2 ≠ 0 ∧ Memory.wf m := by
  simp only [Memory.wf, List.pairwise_cons, List.forall_mem_cons]
  tauto

/-- What is not listed reads 0. -/
theorem Memory.read_eq_zero {m : Memory} {a : Nat} (h : ∀ c ∈ m, c.1 ≠ a) : m.read a = 0 := by
  induction m with
  | nil => rfl
  | cons c m ih =>
    simp only [List.forall_mem_cons] at h
    simp [Memory.read, h.1, ih h.2]

theorem Memory.read_cons (c : Host.Cell) (m : Memory) (a : Nat) :
    Memory.read (c :: m) a = if c.1 = a then c.2 else m.read a := rfl

/-- The cells of a written storage are the written cell and cells that were there. -/
theorem Memory.mem_write {m : Memory} {a : Nat} {v : Byte} {c : Host.Cell}
    (h : c ∈ m.write a v) : c = (a, v) ∧ v ≠ 0 ∨ c ∈ m := by
  induction m with
  | nil =>
    simp only [Memory.write] at h
    split at h <;> simp_all
  | cons d m ih =>
    simp only [Memory.write] at h
    split_ifs at h <;> simp only [List.mem_cons] at h ⊢ <;> tauto

/-- A write keeps the canonical form. -/
theorem Memory.wf_write {m : Memory} (h : m.wf) (a : Nat) (v : Byte) : (m.write a v).wf := by
  induction m with
  | nil =>
    simp only [Memory.write]
    split <;> simp_all [Memory.wf]
  | cons d m ih =>
    obtain ⟨h1, h2, h3⟩ := Memory.wf_cons.mp h
    simp only [Memory.write]
    split_ifs with hlt hv heq hv
    · exact h
    · exact Memory.wf_cons.mpr ⟨fun e he => by
        rcases List.mem_cons.mp he with rfl | he
        · exact hlt
        · exact hlt.trans (h1 e he), hv, h⟩
    · exact h3
    · exact Memory.wf_cons.mpr ⟨fun e he => heq ▸ h1 e he, hv, h3⟩
    · refine Memory.wf_cons.mpr ⟨fun e he => ?_, h2, ih h3⟩
      rcases Memory.mem_write he with ⟨rfl, -⟩ | he
      · simp only; omega
      · exact h1 e he

/-- Reading after a write: the byte written, every other byte as before. -/
theorem Memory.read_write {m : Memory} (h : m.wf) (a b : Nat) (v : Byte) :
    (m.write a v).read b = if b = a then v else m.read b := by
  induction m with
  | nil =>
    by_cases hv : v = 0
    · simp [Memory.write, Memory.read, hv]
    · simp only [Memory.write, if_neg hv, Memory.read_cons, Memory.read]
      split_ifs <;> first | rfl | omega
  | cons d m ih =>
    obtain ⟨h1, h2, h3⟩ := Memory.wf_cons.mp h
    have hb : b ≤ d.1 → Memory.read m b = 0 := fun hx =>
      Memory.read_eq_zero fun c hc => by have := h1 c hc; omega
    have ih := ih h3
    simp only [Memory.write]
    by_cases hlt : a < d.1
    · rw [if_pos hlt]
      by_cases hv : v = 0
      · rw [if_pos hv, hv]
        by_cases hba : b = a
        · rw [if_pos hba, Memory.read_cons, if_neg (by omega), hb (by omega)]
        · rw [if_neg hba]
      · rw [if_neg hv, Memory.read_cons]
        by_cases hba : b = a
        · rw [if_pos hba, if_pos hba.symm]
        · rw [if_neg hba, if_neg (Ne.symm hba)]
    · rw [if_neg hlt]
      by_cases heq : a = d.1
      · rw [if_pos heq]
        by_cases hba : b = a
        · rw [if_pos hba]
          by_cases hv : v = 0
          · rw [if_pos hv, hv, hb (by omega)]
          · rw [if_neg hv, Memory.read_cons, if_pos hba.symm]
        · have hdb : ¬d.1 = b := by omega
          rw [if_neg hba, Memory.read_cons d, if_neg hdb]
          by_cases hv : v = 0
          · rw [if_pos hv]
          · rw [if_neg hv, Memory.read_cons, if_neg (Ne.symm hba)]
      · rw [if_neg heq, Memory.read_cons, Memory.read_cons, ih]
        by_cases hdb : d.1 = b
        · rw [if_pos hdb, if_neg (by omega), if_pos hdb]
        · rw [if_neg hdb, if_neg hdb]

/-- Dropping the bytes from an address up keeps the canonical form. -/
theorem Memory.wf_below {m : Memory} (h : m.wf) (a : Nat) : (m.below a).wf :=
  ⟨h.1.filter _, fun c hc => h.2 c (List.mem_of_mem_filter hc)⟩

theorem Memory.mem_below {m : Memory} {a : Nat} {c : Host.Cell} :
    c ∈ m.below a ↔ c ∈ m ∧ c.1 < a := by
  simp [Memory.below, List.mem_filter]

/-- Below the address every byte stays, from it up every byte reads 0. -/
theorem Memory.read_below (m : Memory) (a b : Nat) :
    (m.below a).read b = if b < a then m.read b else 0 := by
  induction m with
  | nil => simp [Memory.below, Memory.read]
  | cons c m ih =>
    simp only [Memory.below, List.filter_cons] at ih ⊢
    split_ifs with h1 h2 h2 <;> simp only [decide_eq_true_eq] at h1 <;>
      simp only [Memory.read_cons, ih] <;> split_ifs <;> first | rfl | omega

/-- Canonical storages that read the same are the same. -/
theorem Memory.ext {m m' : Memory} (h : m.wf) (h' : m'.wf)
    (hr : ∀ a, m.read a = m'.read a) : m = m' := by
  induction m generalizing m' with
  | nil =>
    cases m' with
    | nil => rfl
    | cons d m' =>
      have := hr d.1
      simp only [Memory.read, ↓reduceIte] at this
      exact absurd this.symm (Memory.wf_cons.mp h').2.1
  | cons c m ih =>
    obtain ⟨h1, h2, h3⟩ := Memory.wf_cons.mp h
    cases m' with
    | nil =>
      have := hr c.1
      simp only [Memory.read, ↓reduceIte] at this
      exact absurd this h2
    | cons d m' =>
      obtain ⟨h1', h2', h3'⟩ := Memory.wf_cons.mp h'
      have hz : ∀ x, x ≤ c.1 → Memory.read m x = 0 := fun x hx =>
        Memory.read_eq_zero fun e he => by have := h1 e he; omega
      have hz' : ∀ x, x ≤ d.1 → Memory.read m' x = 0 := fun x hx =>
        Memory.read_eq_zero fun e he => by have := h1' e he; omega
      have hcd : c.1 = d.1 := by
        rcases Nat.lt_trichotomy c.1 d.1 with hlt | heq | hgt
        · have := hr c.1
          simp only [Memory.read_cons, ↓reduceIte, show ¬d.1 = c.1 by omega, hz' c.1 hlt.le] at this
          exact absurd this h2
        · exact heq
        · have := hr d.1
          simp only [Memory.read_cons, ↓reduceIte, show ¬c.1 = d.1 by omega, hz d.1 hgt.le] at this
          exact absurd this.symm h2'
      have hv : c.2 = d.2 := by
        have := hr c.1
        simpa [Memory.read_cons, hcd] using this
      have hm : m = m' := ih h3 h3' fun a => by
        by_cases ha : a ≤ c.1
        · rw [hz a ha, hz' a (hcd ▸ ha)]
        · have := hr a
          simpa [Memory.read_cons, show ¬c.1 = a by omega, show ¬d.1 = a by omega] using this
      rw [hm, Prod.ext hcd hv]

/-! ## Words -/

/-- Bit `i` of a stored word is bit `i mod 8` of its byte `i div 8` (R52). -/
theorem Memory.getLsbD_word (m : Memory) (j i : Nat) (hi : i < 32) :
    (m.word j).getLsbD i = (m.read (4 * j + i / 8)).getLsbD (i % 8) := by
  simp only [Memory.word, BitVec.getLsbD_append]
  have : i / 8 = 0 ∨ i / 8 = 1 ∨ i / 8 = 2 ∨ i / 8 = 3 := by omega
  rcases this with h | h | h | h <;> rw [h] <;> split_ifs <;>
    first | omega | (congr 1; omega)

theorem Memory.wf_setWord {m : Memory} (h : m.wf) (j : Nat) (w : Word) : (m.setWord j w).wf :=
  Memory.wf_write (Memory.wf_write (Memory.wf_write (Memory.wf_write h _ _) _ _) _ _) _ _

/-- The bytes after a word is stored: its four bytes, every other byte as before. -/
theorem Memory.read_setWord {m : Memory} (h : m.wf) (j a : Nat) (w : Word) :
    (m.setWord j w).read a =
      if a / 4 = j then w.extractLsb' (8 * (a % 4)) 8 else m.read a := by
  have h0 := Memory.wf_write h (4 * j) (w.extractLsb' 0 8)
  have h1 := Memory.wf_write h0 (4 * j + 1) (w.extractLsb' 8 8)
  have h2 := Memory.wf_write h1 (4 * j + 2) (w.extractLsb' 16 8)
  simp only [Memory.setWord, Memory.read_write h2, Memory.read_write h1, Memory.read_write h0,
    Memory.read_write h]
  by_cases hj : a / 4 = j
  · have : a % 4 = 0 ∨ a % 4 = 1 ∨ a % 4 = 2 ∨ a % 4 = 3 := by omega
    rcases this with hm | hm | hm | hm <;> simp only [hj, hm] <;> split_ifs <;>
      first | omega | rfl
  · rw [if_neg (by omega), if_neg (by omega), if_neg (by omega), if_neg (by omega), if_neg hj]

/-- Reading a word after a word is stored. -/
theorem Memory.word_setWord {m : Memory} (h : m.wf) (i j : Nat) (w : Word) :
    (m.setWord j w).word i = if i = j then w else m.word i := by
  apply BitVec.eq_of_getLsbD_eq
  intro t ht
  rw [Memory.getLsbD_word _ _ _ ht, Memory.read_setWord h]
  have hd : (4 * i + t / 8) / 4 = i := by omega
  have hm : (4 * i + t / 8) % 4 = t / 8 := by omega
  rw [hd, hm]
  split_ifs with hij
  · simp only [BitVec.getLsbD_extractLsb']
    rw [show 8 * (t / 8) + t % 8 = t by omega]
    simp [show t % 8 < 8 by omega]
  · rw [Memory.getLsbD_word _ _ _ ht]

/-- A stored word adds cells of that word only. -/
theorem Memory.mem_setWord {m : Memory} {j : Nat} {w : Word} {c : Host.Cell}
    (h : c ∈ m.setWord j w) : c.1 / 4 = j ∨ c ∈ m := by
  simp only [Memory.setWord] at h
  rcases Memory.mem_write h with ⟨rfl, -⟩ | h
  · left; simp only; omega
  rcases Memory.mem_write h with ⟨rfl, -⟩ | h
  · left; simp only; omega
  rcases Memory.mem_write h with ⟨rfl, -⟩ | h
  · left; simp only; omega
  rcases Memory.mem_write h with ⟨rfl, -⟩ | h
  · left; simp only; omega
  exact .inr h

/-- The words below the cut stay, the words from it up are zero. -/
theorem Memory.word_below (m : Memory) (l j : Nat) :
    (m.below (4 * l)).word j = if j < l then m.word j else 0 := by
  apply BitVec.eq_of_getLsbD_eq
  intro t ht
  rw [Memory.getLsbD_word _ _ _ ht, Memory.read_below]
  split_ifs with h1 h2 h2
  · rw [Memory.getLsbD_word _ _ _ ht]
  · omega
  · omega
  · simp

end Sys2Proof.Machine
end

