-- ==== Sys2Proof/Laws/State.lean ====
section
/-! SUPPORT. One lemma per field per update of the state, so that no later proof unfolds a record update. -/

namespace Sys2Proof.Machine

/-! ## `respond` -/

@[simp] theorem State.respond_phase (s : State) (r : BitVec 128) : (s.respond r).phase = s.phase := rfl
@[simp] theorem State.respond_mode (s : State) (r : BitVec 128) : (s.respond r).mode = s.mode := rfl
@[simp] theorem State.respond_k (s : State) (r : BitVec 128) : (s.respond r).k = s.k := rfl
@[simp] theorem State.respond_n (s : State) (r : BitVec 128) : (s.respond r).n = s.n := rfl
@[simp] theorem State.respond_len (s : State) (r : BitVec 128) : (s.respond r).len = s.len := rfl
@[simp] theorem State.respond_pos (s : State) (r : BitVec 128) : (s.respond r).pos = s.pos := rfl
@[simp] theorem State.respond_smax (s : State) (r : BitVec 128) : (s.respond r).smax = s.smax := rfl
@[simp] theorem State.respond_sany (s : State) (r : BitVec 128) : (s.respond r).sany = s.sany := rfl
@[simp] theorem State.respond_err (s : State) (r : BitVec 128) : (s.respond r).err = s.err := rfl
@[simp] theorem State.respond_cap (s : State) (r : BitVec 128) : (s.respond r).cap = s.cap := rfl
@[simp] theorem State.respond_mem (s : State) (r : BitVec 128) : (s.respond r).mem = s.mem := rfl
@[simp] theorem State.respond_port (s : State) (r : BitVec 128) : (s.respond r).port = s.port := rfl
@[simp] theorem State.respond_resp (s : State) (r : BitVec 128) : (s.respond r).resp = some (responsePacket statusOk r) := rfl

/-! ## `failWith` -/

@[simp] theorem State.failWith_phase (s : State) (c : ErrorCode) : (s.failWith c).phase = s.phase := rfl
@[simp] theorem State.failWith_mode (s : State) (c : ErrorCode) : (s.failWith c).mode = s.mode := rfl
@[simp] theorem State.failWith_k (s : State) (c : ErrorCode) : (s.failWith c).k = s.k := rfl
@[simp] theorem State.failWith_n (s : State) (c : ErrorCode) : (s.failWith c).n = s.n := rfl
@[simp] theorem State.failWith_len (s : State) (c : ErrorCode) : (s.failWith c).len = s.len := rfl
@[simp] theorem State.failWith_pos (s : State) (c : ErrorCode) : (s.failWith c).pos = s.pos := rfl
@[simp] theorem State.failWith_smax (s : State) (c : ErrorCode) : (s.failWith c).smax = s.smax := rfl
@[simp] theorem State.failWith_sany (s : State) (c : ErrorCode) : (s.failWith c).sany = s.sany := rfl
@[simp] theorem State.failWith_err (s : State) (c : ErrorCode) : (s.failWith c).err = stickyErr s.err c := rfl
@[simp] theorem State.failWith_cap (s : State) (c : ErrorCode) : (s.failWith c).cap = s.cap := rfl
@[simp] theorem State.failWith_mem (s : State) (c : ErrorCode) : (s.failWith c).mem = s.mem := rfl
@[simp] theorem State.failWith_port (s : State) (c : ErrorCode) : (s.failWith c).port = s.port := rfl
@[simp] theorem State.failWith_resp (s : State) (c : ErrorCode) : (s.failWith c).resp = some (responsePacket c.code 0) := rfl

/-! ## `failBuild` -/

@[simp] theorem State.failBuild_phase (s : State) (c : ErrorCode) : (s.failBuild c).phase = .failed := rfl
@[simp] theorem State.failBuild_mode (s : State) (c : ErrorCode) : (s.failBuild c).mode = s.mode := rfl
@[simp] theorem State.failBuild_k (s : State) (c : ErrorCode) : (s.failBuild c).k = s.k := rfl
@[simp] theorem State.failBuild_n (s : State) (c : ErrorCode) : (s.failBuild c).n = s.n := rfl
@[simp] theorem State.failBuild_len (s : State) (c : ErrorCode) : (s.failBuild c).len = s.len := rfl
@[simp] theorem State.failBuild_pos (s : State) (c : ErrorCode) : (s.failBuild c).pos = s.pos := rfl
@[simp] theorem State.failBuild_smax (s : State) (c : ErrorCode) : (s.failBuild c).smax = s.smax := rfl
@[simp] theorem State.failBuild_sany (s : State) (c : ErrorCode) : (s.failBuild c).sany = s.sany := rfl
@[simp] theorem State.failBuild_err (s : State) (c : ErrorCode) : (s.failBuild c).err = stickyErr s.err c := rfl
@[simp] theorem State.failBuild_cap (s : State) (c : ErrorCode) : (s.failBuild c).cap = s.cap := rfl
@[simp] theorem State.failBuild_mem (s : State) (c : ErrorCode) : (s.failBuild c).mem = s.mem := rfl
@[simp] theorem State.failBuild_port (s : State) (c : ErrorCode) : (s.failBuild c).port = s.port := rfl
@[simp] theorem State.failBuild_resp (s : State) (c : ErrorCode) : (s.failBuild c).resp = some (responsePacket c.code 0) := rfl

/-! ## `clearAll` -/

@[simp] theorem State.clearAll_phase (s : State) : (s.clearAll).phase = .raw := rfl
@[simp] theorem State.clearAll_mode (s : State) : (s.clearAll).mode = .crossing := rfl
@[simp] theorem State.clearAll_k (s : State) : (s.clearAll).k = 0 := rfl
@[simp] theorem State.clearAll_n (s : State) : (s.clearAll).n = 0 := rfl
@[simp] theorem State.clearAll_len (s : State) : (s.clearAll).len = 0 := rfl
@[simp] theorem State.clearAll_pos (s : State) : (s.clearAll).pos = 0 := rfl
@[simp] theorem State.clearAll_smax (s : State) : (s.clearAll).smax = 0 := rfl
@[simp] theorem State.clearAll_sany (s : State) : (s.clearAll).sany = false := rfl
@[simp] theorem State.clearAll_err (s : State) : (s.clearAll).err = 0 := rfl
@[simp] theorem State.clearAll_cap (s : State) : (s.clearAll).cap = s.cap := rfl
@[simp] theorem State.clearAll_mem (s : State) : (s.clearAll).mem = [] := rfl
@[simp] theorem State.clearAll_port (s : State) : (s.clearAll).port = s.port := rfl
@[simp] theorem State.clearAll_resp (s : State) : (s.clearAll).resp = s.resp := rfl

/-! ## `hostReset` -/

@[simp] theorem State.hostReset_phase (s : State) : (s.hostReset).phase = .raw := rfl
@[simp] theorem State.hostReset_mode (s : State) : (s.hostReset).mode = .crossing := rfl
@[simp] theorem State.hostReset_k (s : State) : (s.hostReset).k = 0 := rfl
@[simp] theorem State.hostReset_n (s : State) : (s.hostReset).n = 0 := rfl
@[simp] theorem State.hostReset_len (s : State) : (s.hostReset).len = 0 := rfl
@[simp] theorem State.hostReset_pos (s : State) : (s.hostReset).pos = 0 := rfl
@[simp] theorem State.hostReset_smax (s : State) : (s.hostReset).smax = 0 := rfl
@[simp] theorem State.hostReset_sany (s : State) : (s.hostReset).sany = false := rfl
@[simp] theorem State.hostReset_err (s : State) : (s.hostReset).err = 0 := rfl
@[simp] theorem State.hostReset_cap (s : State) : (s.hostReset).cap = s.cap := rfl
@[simp] theorem State.hostReset_mem (s : State) : (s.hostReset).mem = [] := rfl
@[simp] theorem State.hostReset_port (s : State) : (s.hostReset).port = s.port := rfl
@[simp] theorem State.hostReset_resp (s : State) : (s.hostReset).resp = none := rfl

/-! ## `present` -/

@[simp] theorem State.present_phase (s : State) (x : HostAction) : (s.present x).phase = s.phase := rfl
@[simp] theorem State.present_mode (s : State) (x : HostAction) : (s.present x).mode = s.mode := rfl
@[simp] theorem State.present_k (s : State) (x : HostAction) : (s.present x).k = s.k := rfl
@[simp] theorem State.present_n (s : State) (x : HostAction) : (s.present x).n = s.n := rfl
@[simp] theorem State.present_len (s : State) (x : HostAction) : (s.present x).len = s.len := rfl
@[simp] theorem State.present_pos (s : State) (x : HostAction) : (s.present x).pos = s.pos := rfl
@[simp] theorem State.present_smax (s : State) (x : HostAction) : (s.present x).smax = s.smax := rfl
@[simp] theorem State.present_sany (s : State) (x : HostAction) : (s.present x).sany = s.sany := rfl
@[simp] theorem State.present_err (s : State) (x : HostAction) : (s.present x).err = s.err := rfl
@[simp] theorem State.present_cap (s : State) (x : HostAction) : (s.present x).cap = s.cap := rfl
@[simp] theorem State.present_mem (s : State) (x : HostAction) : (s.present x).mem = s.mem := rfl
@[simp] theorem State.present_port (s : State) (x : HostAction) : (s.present x).port = x :: s.port := rfl
@[simp] theorem State.present_resp (s : State) (x : HostAction) : (s.present x).resp = s.resp := rfl

/-! ## `startBuild` -/

@[simp] theorem State.startBuild_phase (s : State) (md : Mode) (w : Nat) : (s.startBuild md w).phase = .build := rfl
@[simp] theorem State.startBuild_mode (s : State) (md : Mode) (w : Nat) : (s.startBuild md w).mode = md := rfl
@[simp] theorem State.startBuild_k (s : State) (md : Mode) (w : Nat) : (s.startBuild md w).k = BitVec.ofNat 16 w := rfl
@[simp] theorem State.startBuild_n (s : State) (md : Mode) (w : Nat) : (s.startBuild md w).n = 0 := rfl
@[simp] theorem State.startBuild_len (s : State) (md : Mode) (w : Nat) : (s.startBuild md w).len = s.len := rfl
@[simp] theorem State.startBuild_pos (s : State) (md : Mode) (w : Nat) : (s.startBuild md w).pos = 0 := rfl
@[simp] theorem State.startBuild_smax (s : State) (md : Mode) (w : Nat) : (s.startBuild md w).smax = s.smax := rfl
@[simp] theorem State.startBuild_sany (s : State) (md : Mode) (w : Nat) : (s.startBuild md w).sany = s.sany := rfl
@[simp] theorem State.startBuild_err (s : State) (md : Mode) (w : Nat) : (s.startBuild md w).err = s.err := rfl
@[simp] theorem State.startBuild_cap (s : State) (md : Mode) (w : Nat) : (s.startBuild md w).cap = s.cap := rfl
@[simp] theorem State.startBuild_mem (s : State) (md : Mode) (w : Nat) : (s.startBuild md w).mem = s.mem := rfl
@[simp] theorem State.startBuild_port (s : State) (md : Mode) (w : Nat) : (s.startBuild md w).port = s.port := rfl
@[simp] theorem State.startBuild_resp (s : State) (md : Mode) (w : Nat) : (s.startBuild md w).resp = s.resp := rfl

/-! ## `resetWith` -/

@[simp] theorem State.resetWith_phase (c : BitVec 32) : (State.resetWith c).phase = .raw := rfl
@[simp] theorem State.resetWith_mode (c : BitVec 32) : (State.resetWith c).mode = .crossing := rfl
@[simp] theorem State.resetWith_k (c : BitVec 32) : (State.resetWith c).k = 0 := rfl
@[simp] theorem State.resetWith_n (c : BitVec 32) : (State.resetWith c).n = 0 := rfl
@[simp] theorem State.resetWith_len (c : BitVec 32) : (State.resetWith c).len = 0 := rfl
@[simp] theorem State.resetWith_pos (c : BitVec 32) : (State.resetWith c).pos = 0 := rfl
@[simp] theorem State.resetWith_smax (c : BitVec 32) : (State.resetWith c).smax = 0 := rfl
@[simp] theorem State.resetWith_sany (c : BitVec 32) : (State.resetWith c).sany = false := rfl
@[simp] theorem State.resetWith_err (c : BitVec 32) : (State.resetWith c).err = 0 := rfl
@[simp] theorem State.resetWith_cap (c : BitVec 32) : (State.resetWith c).cap = c := rfl
@[simp] theorem State.resetWith_mem (c : BitVec 32) : (State.resetWith c).mem = [] := rfl
@[simp] theorem State.resetWith_port (c : BitVec 32) : (State.resetWith c).port = [] := rfl
@[simp] theorem State.resetWith_resp (c : BitVec 32) : (State.resetWith c).resp = none := rfl

/-! ## `extend` and `pack`: only `len` and `mem` -/

@[simp] theorem State.extend_phase (s : State) (need : Nat) : (s.extend need).phase = s.phase := by
  unfold State.extend; split <;> rfl
@[simp] theorem State.extend_mode (s : State) (need : Nat) : (s.extend need).mode = s.mode := by
  unfold State.extend; split <;> rfl
@[simp] theorem State.extend_k (s : State) (need : Nat) : (s.extend need).k = s.k := by
  unfold State.extend; split <;> rfl
@[simp] theorem State.extend_n (s : State) (need : Nat) : (s.extend need).n = s.n := by
  unfold State.extend; split <;> rfl
@[simp] theorem State.extend_pos (s : State) (need : Nat) : (s.extend need).pos = s.pos := by
  unfold State.extend; split <;> rfl
@[simp] theorem State.extend_smax (s : State) (need : Nat) : (s.extend need).smax = s.smax := by
  unfold State.extend; split <;> rfl
@[simp] theorem State.extend_sany (s : State) (need : Nat) : (s.extend need).sany = s.sany := by
  unfold State.extend; split <;> rfl
@[simp] theorem State.extend_err (s : State) (need : Nat) : (s.extend need).err = s.err := by
  unfold State.extend; split <;> rfl
@[simp] theorem State.extend_cap (s : State) (need : Nat) : (s.extend need).cap = s.cap := by
  unfold State.extend; split <;> rfl
@[simp] theorem State.extend_port (s : State) (need : Nat) : (s.extend need).port = s.port := by
  unfold State.extend; split <;> rfl
@[simp] theorem State.extend_resp (s : State) (need : Nat) : (s.extend need).resp = s.resp := by
  unfold State.extend; split <;> rfl
@[simp] theorem State.pack_phase (s : State) (a v w : Nat) : (s.pack a v w).phase = s.phase :=
  State.extend_phase s _
@[simp] theorem State.pack_mode (s : State) (a v w : Nat) : (s.pack a v w).mode = s.mode :=
  State.extend_mode s _
@[simp] theorem State.pack_k (s : State) (a v w : Nat) : (s.pack a v w).k = s.k :=
  State.extend_k s _
@[simp] theorem State.pack_n (s : State) (a v w : Nat) : (s.pack a v w).n = s.n :=
  State.extend_n s _
@[simp] theorem State.pack_pos (s : State) (a v w : Nat) : (s.pack a v w).pos = s.pos :=
  State.extend_pos s _
@[simp] theorem State.pack_smax (s : State) (a v w : Nat) : (s.pack a v w).smax = s.smax :=
  State.extend_smax s _
@[simp] theorem State.pack_sany (s : State) (a v w : Nat) : (s.pack a v w).sany = s.sany :=
  State.extend_sany s _
@[simp] theorem State.pack_err (s : State) (a v w : Nat) : (s.pack a v w).err = s.err :=
  State.extend_err s _
@[simp] theorem State.pack_cap (s : State) (a v w : Nat) : (s.pack a v w).cap = s.cap :=
  State.extend_cap s _
@[simp] theorem State.pack_port (s : State) (a v w : Nat) : (s.pack a v w).port = s.port :=
  State.extend_port s _
@[simp] theorem State.pack_resp (s : State) (a v w : Nat) : (s.pack a v w).resp = s.resp :=
  State.extend_resp s _

/-! ## `placeElement` -/

@[simp] theorem State.placeElement_pos (s : State) (v : Nat) :
    (s.placeElement v).pos = BitVec.ofNat 64 (s.pushStart + s.k.toNat) := rfl
@[simp] theorem State.placeElement_n (s : State) (v : Nat) : (s.placeElement v).n = s.n + 1 := rfl
@[simp] theorem State.placeElement_len (s : State) (v : Nat) :
    (s.placeElement v).len = (s.pack s.pushStart v s.k.toNat).len := rfl
@[simp] theorem State.placeElement_mem (s : State) (v : Nat) :
    (s.placeElement v).mem = (s.pack s.pushStart v s.k.toNat).mem := rfl
@[simp] theorem State.placeElement_phase (s : State) (v : Nat) : (s.placeElement v).phase = s.phase :=
  State.pack_phase s s.pushStart v s.k.toNat
@[simp] theorem State.placeElement_mode (s : State) (v : Nat) : (s.placeElement v).mode = s.mode :=
  State.pack_mode s s.pushStart v s.k.toNat
@[simp] theorem State.placeElement_k (s : State) (v : Nat) : (s.placeElement v).k = s.k :=
  State.pack_k s s.pushStart v s.k.toNat
@[simp] theorem State.placeElement_smax (s : State) (v : Nat) : (s.placeElement v).smax = s.smax :=
  State.pack_smax s s.pushStart v s.k.toNat
@[simp] theorem State.placeElement_sany (s : State) (v : Nat) : (s.placeElement v).sany = s.sany :=
  State.pack_sany s s.pushStart v s.k.toNat
@[simp] theorem State.placeElement_err (s : State) (v : Nat) : (s.placeElement v).err = s.err :=
  State.pack_err s s.pushStart v s.k.toNat
@[simp] theorem State.placeElement_cap (s : State) (v : Nat) : (s.placeElement v).cap = s.cap :=
  State.pack_cap s s.pushStart v s.k.toNat
@[simp] theorem State.placeElement_port (s : State) (v : Nat) : (s.placeElement v).port = s.port :=
  State.pack_port s s.pushStart v s.k.toNat
@[simp] theorem State.placeElement_resp (s : State) (v : Nat) : (s.placeElement v).resp = s.resp :=
  State.pack_resp s s.pushStart v s.k.toNat

/-! ## The word array is read through `len` and `mem` alone -/

/-- States with the same `len` and `mem` have the same words. -/
theorem State.word_congr {s t : State} (hl : s.len = t.len) (hm : s.mem = t.mem) (j : Nat) :
    s.word j = t.word j := by simp only [State.word, hl, hm]

/-- States with the same `len` and `mem` have the same stream bits. -/
theorem State.bit_congr {s t : State} (hl : s.len = t.len) (hm : s.mem = t.mem) (b : Nat) :
    s.bit b = t.bit b := by simp only [State.bit, hl, hm]

theorem State.unpackLoop_congr {s t : State} (h : ∀ j, s.word j = t.word j)
    (a w fuel done r : Nat) : s.unpackLoop a w fuel done r = t.unpackLoop a w fuel done r := by
  induction fuel generalizing done r with
  | zero => rfl
  | succ fuel ih => simp only [State.unpackLoop, h, ih]

/-- States with the same `len` and `mem` answer `unpack` alike. -/
theorem State.unpack_congr {s t : State} (hl : s.len = t.len) (hm : s.mem = t.mem) (a w : Nat) :
    s.unpack a w = t.unpack a w :=
  State.unpackLoop_congr (State.word_congr hl hm) _ _ _ _ _

@[simp] theorem State.bit_respond (s : State) (r : BitVec 128) (b : Nat) :
    (s.respond r).bit b = s.bit b := rfl
@[simp] theorem State.bit_failWith (s : State) (c : ErrorCode) (b : Nat) :
    (s.failWith c).bit b = s.bit b := rfl
@[simp] theorem State.bit_failBuild (s : State) (c : ErrorCode) (b : Nat) :
    (s.failBuild c).bit b = s.bit b := rfl
@[simp] theorem State.unpack_respond (s : State) (r : BitVec 128) (a w : Nat) :
    (s.respond r).unpack a w = s.unpack a w :=
  State.unpack_congr (s := s.respond r) (t := s) rfl rfl a w
@[simp] theorem State.elementStart_respond (s : State) (r : BitVec 128) (i : Nat) :
    (s.respond r).elementStart i = s.elementStart i := rfl
@[simp] theorem State.element_respond (s : State) (r : BitVec 128) (i : Nat) :
    (s.respond r).element i = s.element i := State.unpack_respond s r _ _

end Sys2Proof.Machine
end

