-- ==== Sys2Proof/Laws/Bits.lean ====
section
/-! SUPPORT. What the word-array operations do, bit by bit: `bit`, `extend`, `unpack`, `pack` (R90 to R94, R96). -/

namespace Sys2Proof.Machine

/-- A stream bit is the bit of its word (R50, R90). -/
theorem State.bit_eq_word (s : State) (b : Nat) :
    s.bit b = (s.word (b / 32)).getLsbD (b % 32) := by
  simp only [State.bit, State.word]
  split_ifs <;> simp

/-- Beyond the array every bit is 0 (R90). -/
theorem State.bit_beyond {s : State} {b : Nat} (h : 32 * s.len.toNat ≤ b) : s.bit b = false := by
  simp only [State.bit]
  rw [if_neg (by omega)]

/-! ## `extend` (R93) -/

/-- `LEN` after `extend`. -/
theorem State.len_extend (s : State) {need : Nat} (h : need < 2 ^ 32) :
    (s.extend need).len.toNat = max s.len.toNat need := by
  unfold State.extend
  split_ifs with hlt
  · simp only [BitVec.toNat_ofNat, Nat.mod_eq_of_lt h]; omega
  · omega

theorem State.wf_extend {s : State} (h : s.mem.wf) (need : Nat) : (s.extend need).mem.wf := by
  unfold State.extend
  split_ifs
  · exact Memory.wf_below h _
  · exact h

/-- The words a grown array gains are zero, and `word` read zero there before. -/
theorem State.word_extend (s : State) {need : Nat} (h : need < 2 ^ 32) (j : Nat) :
    (s.extend need).word j = s.word j := by
  unfold State.extend
  split_ifs with hlt
  · simp only [State.word, BitVec.toNat_ofNat, Nat.mod_eq_of_lt h, Memory.word_below]
    split_ifs <;> first | rfl | omega
  · rfl

/-- `extend` changes no stream bit. -/
theorem State.bit_extend (s : State) {need : Nat} (h : need < 2 ^ 32) (b : Nat) :
    (s.extend need).bit b = s.bit b := by
  rw [State.bit_eq_word, State.bit_eq_word, State.word_extend s h]

/-- `extend` lists no byte beyond the array if none was listed. -/
theorem State.mem_extend_below {s : State} {need : Nat} (h : need < 2 ^ 32)
    (hb : ∀ c ∈ s.mem, c.1 < 4 * s.len.toNat) :
    ∀ c ∈ (s.extend need).mem, c.1 < 4 * (s.extend need).len.toNat := by
  intro c hc
  rw [State.len_extend s h]
  unfold State.extend at hc
  split_ifs at hc
  · have := hb c (Memory.mem_below.mp hc).1; omega
  · have := hb c hc; omega

/-! ## Chunks (R96) -/

theorem chunkSize_pos {start w done : Nat} (h : done < w) : 0 < chunkSize start w done := by
  unfold chunkSize; omega

theorem chunkSize_le (start w done : Nat) : chunkSize start w done ≤ w - done := by
  unfold chunkSize; omega

theorem chunkSize_fits (start w done : Nat) :
    (start + done) % 32 + chunkSize start w done ≤ 32 := by
  unfold chunkSize; omega

/-- One chunk of `pack`: bits `o .. o+c-1` come from `x`, the others stay. -/
theorem getLsbD_chunkWord (old : Word) {o c : Nat} (x : Nat) (h : o + c ≤ 32) {i : Nat}
    (hi : i < 32) :
    (chunkWord old o c x).getLsbD i =
      if o ≤ i ∧ i < o + c then x.testBit (i - o) else old.getLsbD i := by
  simp only [chunkWord, BitVec.getLsbD_or, BitVec.getLsbD_and, BitVec.getLsbD_not,
    BitVec.getLsbD_shiftLeft, BitVec.getLsbD_ofNat, Nat.testBit_and, Nat.testBit_two_pow_sub_one,
    hi, decide_true, Bool.true_and]
  by_cases ho : i < o
  · simp [ho, show ¬(o ≤ i) by omega]
  · by_cases hc : i < o + c
    · simp [ho, hc, show i - o < 32 by omega, show i - o < c by omega, show o ≤ i by omega]
    · simp [ho, hc, show ¬(i - o < c) by omega]

/-! ## `unpack` (R92, R96) -/

/-- The bits of the partial result of the chunk loop. -/
theorem State.testBit_unpackLoop (s : State) (start w fuel done r t : Nat)
    (hf : w ≤ done + fuel) (hr : ∀ u, r.testBit u = (decide (u < done) && s.bit (start + u)))
    (hd : done ≤ w) :
    (s.unpackLoop start w fuel done r).testBit t = (decide (t < w) && s.bit (start + t)) := by
  induction fuel generalizing done r with
  | zero =>
    have : done = w := by omega
    subst this
    exact hr t
  | succ fuel ih =>
    simp only [State.unpackLoop]
    split_ifs with hlt
    · have hpos := chunkSize_pos (start := start) hlt
      have hle := chunkSize_le start w done
      have hfit := chunkSize_fits start w done
      refine ih _ _ (by omega) (fun u => ?_) (by omega)
      simp only [Nat.testBit_or, hr, Nat.testBit_shiftLeft, Nat.testBit_and,
        Nat.testBit_two_pow_sub_one, Nat.testBit_shiftRight, BitVec.testBit_toNat]
      by_cases h1 : u < done
      · simp [h1, show ¬(u ≥ done) by omega, show u < done + chunkSize start w done by omega]
      · by_cases h2 : u < done + chunkSize start w done
        · have hq : (start + u) / 32 = (start + done) / 32 := by omega
          have hm : (start + done) % 32 + (u - done) = (start + u) % 32 := by omega
          rw [State.bit_eq_word, hq, hm]
          simp [h1, h2, show u ≥ done by omega, show u - done < chunkSize start w done by omega]
        · simp [h1, h2, show ¬(u - done < chunkSize start w done) by omega]
    · have : done = w := by omega
      subst this
      exact hr t

/-- Bit `t` of `unpack(start, w)` is stream bit `start + t`, for `t < w` (R92). -/
theorem State.testBit_unpack (s : State) (start w t : Nat) :
    (s.unpack start w).testBit t = (decide (t < w) && s.bit (start + t)) :=
  s.testBit_unpackLoop start w w 0 0 t (by omega) (by simp) (by omega)

/-- `unpack(start, w)` is in `[0, 2^w)` (R92). -/
theorem State.unpack_lt (s : State) (start w : Nat) : s.unpack start w < 2 ^ w := by
  apply Nat.lt_pow_two_of_testBit
  intro i hi
  rw [State.testBit_unpack]
  simp [show ¬(i < w) by omega]

/-- `unpack` depends on the stream bits of its field alone. -/
theorem State.unpack_eq_of_bits {s t : State} {a b w : Nat}
    (h : ∀ u < w, s.bit (a + u) = t.bit (b + u)) : s.unpack a w = t.unpack b w := by
  apply Nat.eq_of_testBit_eq
  intro i
  rw [State.testBit_unpack, State.testBit_unpack]
  by_cases hi : i < w
  · rw [h i hi]
  · simp [hi]

/-- A field that holds the bits of a value that fits reads as that value. -/
theorem State.unpack_eq_value {s : State} {a v w : Nat} (hv : v < 2 ^ w)
    (h : ∀ u < w, s.bit (a + u) = v.testBit u) : s.unpack a w = v := by
  apply Nat.eq_of_testBit_eq
  intro i
  rw [State.testBit_unpack]
  by_cases hi : i < w
  · simp [hi, h i hi]
  · simp [hi, Nat.testBit_lt_two_pow (hv.trans_le (Nat.pow_le_pow_right (by omega) (not_lt.mp hi)))]

/-! ## `unpack` as the sum of R92 -/

/-- The sum of R92 is below `2^w`. -/
theorem State.unpackBits_lt (s : State) (a w : Nat) : s.unpackBits a w < 2 ^ w := by
  induction w with
  | zero => simp [State.unpackBits]
  | succ w ih =>
    have : (s.bit (a + w)).toNat ≤ 1 := Bool.toNat_le _
    have := Nat.mul_le_mul_right (2 ^ w) this
    simp only [State.unpackBits, pow_succ]
    omega

/-- Bit `t` of the sum of R92 is stream bit `a + t`, for `t < w`. -/
theorem State.testBit_unpackBits (s : State) (a w t : Nat) :
    (s.unpackBits a w).testBit t = (decide (t < w) && s.bit (a + t)) := by
  induction w with
  | zero => simp [State.unpackBits]
  | succ w ih =>
    have hlt := s.unpackBits_lt a w
    rcases Nat.lt_trichotomy t w with h | rfl | h
    · cases hb : s.bit (a + w)
      · simp only [State.unpackBits, hb, Bool.toNat_false, Nat.zero_mul, Nat.add_zero, ih]
        simp [h, show t < w + 1 by omega]
      · simp only [State.unpackBits, hb, Bool.toNat_true, Nat.one_mul]
        rw [Nat.add_comm, Nat.testBit_two_pow_add_gt h, ih]
        simp [h, show t < w + 1 by omega]
    · cases hb : s.bit (a + t)
      · simp only [State.unpackBits, hb, Bool.toNat_false, Nat.zero_mul, Nat.add_zero, ih]
        simp
      · simp only [State.unpackBits, hb, Bool.toNat_true, Nat.one_mul]
        rw [Nat.add_comm, Nat.testBit_two_pow_add_eq]
        simp [Nat.testBit_lt_two_pow hlt]
    · rw [Nat.testBit_lt_two_pow ((s.unpackBits_lt a (w + 1)).trans_le
        (Nat.pow_le_pow_right (by omega) h))]
      simp [show ¬(t < w + 1) by omega]

/-! ## `pack` (R94, R96) -/

theorem Memory.wf_packLoop {m : Memory} (h : m.wf) (start v w fuel done : Nat) :
    (m.packLoop start v w fuel done).wf := by
  induction fuel generalizing m done with
  | zero => exact h
  | succ fuel ih =>
    simp only [Memory.packLoop]
    split_ifs
    · exact ih (Memory.wf_setWord h _ _) _
    · exact h

/-- The chunk loop of `pack`, bit by bit. -/
theorem Memory.getLsbD_packLoop {m : Memory} (h : m.wf) (start v w fuel done : Nat)
    (hf : w ≤ done + fuel) (j i : Nat) (hi : i < 32) :
    ((m.packLoop start v w fuel done).word j).getLsbD i =
      if start + done ≤ 32 * j + i ∧ 32 * j + i < start + w then v.testBit (32 * j + i - start)
      else (m.word j).getLsbD i := by
  induction fuel generalizing m done with
  | zero => simp only [Memory.packLoop]; rw [if_neg (by omega)]
  | succ fuel ih =>
    simp only [Memory.packLoop]
    split_ifs with hlt hb hb
    · have hpos := chunkSize_pos (start := start) hlt
      have hle := chunkSize_le start w done
      have hfit := chunkSize_fits start w done
      rw [ih (Memory.wf_setWord h _ _) _ (by omega), Memory.word_setWord h]
      by_cases h1 : start + (done + chunkSize start w done) ≤ 32 * j + i
      · rw [if_pos ⟨h1, hb.2⟩]
      · have hj : j = (start + done) / 32 := by omega
        rw [if_neg (by omega), if_pos hj, getLsbD_chunkWord _ _ hfit hi, if_pos (by omega),
          Nat.testBit_shiftRight]
        congr 1
        omega
    · have hpos := chunkSize_pos (start := start) hlt
      have hle := chunkSize_le start w done
      have hfit := chunkSize_fits start w done
      rw [ih (Memory.wf_setWord h _ _) _ (by omega), Memory.word_setWord h, if_neg (by omega)]
      by_cases hj : j = (start + done) / 32
      · rw [if_pos hj, getLsbD_chunkWord _ _ hfit hi, if_neg (by omega), hj]
      · rw [if_neg hj]
    · omega
    · rfl

theorem Memory.mem_packLoop {m : Memory} {start v w fuel done : Nat} {c : Host.Cell}
    (h : c ∈ m.packLoop start v w fuel done) : c.1 / 4 ≤ (start + w - 1) / 32 ∨ c ∈ m := by
  induction fuel generalizing m done with
  | zero => exact .inr h
  | succ fuel ih =>
    simp only [Memory.packLoop] at h
    split_ifs at h with hlt
    · rcases ih h with h | h
      · exact .inl h
      · rcases Memory.mem_setWord h with h | h
        · left; omega
        · exact .inr h
    · exact .inr h

/-- `LEN` after `pack` (R93, R94). -/
theorem State.len_pack (s : State) (a v w : Nat) (h : wordsNeeded a w < 2 ^ 32) :
    (s.pack a v w).len.toNat = max s.len.toNat (wordsNeeded a w) :=
  State.len_extend s h

theorem State.wf_pack {s : State} (h : s.mem.wf) (a v w : Nat) : (s.pack a v w).mem.wf :=
  Memory.wf_packLoop (State.wf_extend h _) _ _ _ _ _

/-- What `pack` does (R94): the bits of the field are the bits of `v`, every other stream bit is as before. -/
theorem State.bit_pack {s : State} (hm : s.mem.wf) {a v w : Nat}
    (h : wordsNeeded a w < 2 ^ 32) (b : Nat) :
    (s.pack a v w).bit b = if a ≤ b ∧ b < a + w then v.testBit (b - a) else s.bit b := by
  have hlen := State.len_pack s a v w h
  have hb : 32 * (b / 32) + b % 32 = b := by omega
  have key : ((s.pack a v w).mem.word (b / 32)).getLsbD (b % 32) =
      if a ≤ b ∧ b < a + w then v.testBit (b - a)
      else ((s.extend (wordsNeeded a w)).mem.word (b / 32)).getLsbD (b % 32) := by
    simp only [State.pack]
    rw [Memory.getLsbD_packLoop (State.wf_extend hm _) a v w w 0 (by omega) _ _ (by omega), hb]
    simp only [Nat.add_zero]
  rw [State.bit_eq_word, State.word]
  have hneed : a ≤ b ∧ b < a + w → b / 32 < wordsNeeded a w := by
    intro hb
    unfold wordsNeeded ceilDiv
    omega
  by_cases hin : a ≤ b ∧ b < a + w
  · have := hneed hin
    rw [if_pos (by omega), key, if_pos hin, if_pos hin]
  · rw [if_neg hin] at key ⊢
    rw [← State.bit_extend s h b, State.bit_eq_word, State.word, State.len_extend s h, hlen]
    split_ifs
    · exact key
    · rfl

/-- `pack` lists no byte beyond the array if none was listed. -/
theorem State.mem_pack_below {s : State} {a v w : Nat} (hw : 0 < w)
    (h : wordsNeeded a w < 2 ^ 32) (hb : ∀ c ∈ s.mem, c.1 < 4 * s.len.toNat) :
    ∀ c ∈ (s.pack a v w).mem, c.1 < 4 * (s.pack a v w).len.toNat := by
  intro c hc
  rcases Memory.mem_packLoop hc with hc | hc
  · rw [State.len_pack s a v w h]
    have : (a + w - 1) / 32 < wordsNeeded a w := by unfold wordsNeeded ceilDiv; omega
    omega
  · exact State.mem_extend_below h hb c hc

/-! ## `pack` bit by bit (R94) -/

theorem Memory.wf_setBit {m : Memory} (h : m.wf) (b : Nat) (x : Bool) : (m.setBit b x).wf :=
  Memory.wf_setWord h _ _

theorem Memory.wf_packBits {m : Memory} (h : m.wf) (start v w : Nat) :
    (m.packBits start v w).wf := by
  induction w with
  | zero => exact h
  | succ w ih => exact Memory.wf_setBit ih _ _

/-- Setting a stream bit sets that bit and no other. -/
theorem Memory.getLsbD_setBit {m : Memory} (h : m.wf) (b : Nat) (x : Bool) (j : Nat) {i : Nat}
    (hi : i < 32) :
    ((m.setBit b x).word j).getLsbD i = if 32 * j + i = b then x else (m.word j).getLsbD i := by
  simp only [Memory.setBit, Memory.word_setWord h]
  by_cases hj : j = b / 32
  · rw [if_pos hj]
    have hone : (1 : Word) = BitVec.ofNat 32 1 := rfl
    cases x <;>
      simp only [Bool.false_eq_true, ↓reduceIte, hone, BitVec.getLsbD_or, BitVec.getLsbD_and,
        BitVec.getLsbD_not, BitVec.getLsbD_shiftLeft, BitVec.getLsbD_ofNat, hi, decide_true,
        Bool.true_and, ← hj] <;>
      by_cases hb : i = b % 32
    · rw [if_pos (by omega)]; simp [hb]
    · rw [if_neg (by omega)]
      by_cases hlt : i < b % 32
      · simp [hlt]
      · simp [hlt, Nat.testBit_lt_two_pow (Nat.one_lt_two_pow (show i - b % 32 ≠ 0 by omega))]
    · rw [if_pos (by omega)]; simp [hb]
    · rw [if_neg (by omega)]
      by_cases hlt : i < b % 32
      · simp [hlt]
      · simp [hlt, Nat.testBit_lt_two_pow (Nat.one_lt_two_pow (show i - b % 32 ≠ 0 by omega))]
  · rw [if_neg hj, if_neg (by omega)]

/-- The loop of R94, bit by bit. -/
theorem Memory.getLsbD_packBits {m : Memory} (h : m.wf) (start v w j : Nat) {i : Nat}
    (hi : i < 32) :
    ((m.packBits start v w).word j).getLsbD i =
      if start ≤ 32 * j + i ∧ 32 * j + i < start + w then v.testBit (32 * j + i - start)
      else (m.word j).getLsbD i := by
  induction w with
  | zero => simp only [Memory.packBits]; rw [if_neg (by omega)]
  | succ w ih =>
    simp only [Memory.packBits]
    rw [Memory.getLsbD_setBit (Memory.wf_packBits h _ _ _) _ _ _ hi, ih]
    by_cases he : 32 * j + i = start + w
    · rw [if_pos he, if_pos (by omega), he]; congr 1; omega
    · rw [if_neg he]
      by_cases hin : start ≤ 32 * j + i ∧ 32 * j + i < start + w
      · rw [if_pos hin, if_pos (by omega)]
      · rw [if_neg hin, if_neg (by omega)]

/-- The word array of the reset state is in canonical form. -/
theorem State.wf_reset : State.reset.mem.wf := Memory.wf_nil

end Sys2Proof.Machine
end

