-- ==== Sys2Proof/Laws/Layout.lean ====
section
/-! SUPPORT. The arithmetic of addresses, one lemma each (R10, R93, R110, R112, R121, R123). -/

namespace Sys2Proof.Machine

/-- `ceil_div` by 32 (R10). -/
theorem ceilDiv_le_iff {x n : Nat} : ceilDiv x 32 ≤ n ↔ x ≤ 32 * n := by
  unfold ceilDiv; omega

theorem ceilDiv_mono {x y : Nat} (h : x ≤ y) : ceilDiv x 32 ≤ ceilDiv y 32 := by
  unfold ceilDiv; omega

/-- Every bit of a field lies in a word the field needs (R93). -/
theorem div_lt_wordsNeeded {a w b : Nat} (h : b < a + w) : b / 32 < wordsNeeded a w := by
  unfold wordsNeeded ceilDiv; omega

/-- The cursor of either layout never goes back (R121). -/
theorem le_eplace (md : Mode) (k pos : Nat) : pos ≤ eplace md k pos := by
  cases md <;> simp only [eplace, ncplace]
  · exact le_rfl
  · split_ifs <;> omega

/-- The number of binary digits of a value below `2^b` is at most `b` (R110). -/
theorem bitLength_le {x b : Nat} (h : x < 2 ^ b) : bitLength x ≤ b := by
  unfold bitLength
  split_ifs with h0
  · omega
  · exact (Nat.log2_lt h0).mpr h

/-- A derived width is at most 64 when the largest value is in the `SMAX` register (R111). -/
theorem kderive_le {any : Bool} {smax : Nat} (h : smax < 2 ^ 64) : kderive any smax ≤ 64 := by
  have := bitLength_le h
  unfold kderive
  split_ifs <;> omega

/-- Element addresses of a structure the registers can describe fit 64 bits (R28, R126). -/
theorem estart_lt {md : Mode} {k i : Nat} (hk : k < 2 ^ 16) (hi : i < 2 ^ 32) :
    estart md k i < 2 ^ 64 := by
  cases md <;> simp only [estart, cstart, ncstart]
  · have := Nat.mul_le_mul hi.le hk.le; omega
  · have h1 : i / (32 / k) ≤ i := Nat.div_le_self _ _
    have h2 : k * (i % (32 / k)) ≤ 2 ^ 16 * i := Nat.mul_le_mul hk.le (Nat.mod_le _ _)
    omega

/-- So does the cursor (R28). -/
theorem epos_lt {md : Mode} {k n : Nat} (hk : k ≤ 64) (hn : n < 2 ^ 32) : epos md k n < 2 ^ 64 := by
  cases md <;> simp only [epos]
  · have := Nat.mul_le_mul hn.le hk; omega
  · cases n with
    | zero => simp [ncpos]
    | succ n =>
      simp only [ncpos, ncstart]
      have h1 : n / (32 / k) ≤ n := Nat.div_le_self _ _
      have h2 : k * (n % (32 / k)) ≤ 64 * n := Nat.mul_le_mul hk (Nat.mod_le _ _)
      omega

end Sys2Proof.Machine
end

