-- ==== Sys2Proof/Laws/Packet.lean ====
section
/-! SUPPORT. The fields of a packet that is made of its fields, of any packet, and of a response (R70, R72, R74). -/

namespace Sys2Proof

section
variable (op m : BitVec 8) (w : BitVec 16) (a : BitVec 64) (v : BitVec 128)

@[simp] theorem Packet.make_op : (Packet.make op m w a v).op = op := by
  ext i hi
  simp only [Packet.make, Packet.op, BitVec.getElem_extractLsb', BitVec.getLsbD_append]
  simp [hi]

@[simp] theorem Packet.make_m : (Packet.make op m w a v).m = m := by
  ext i hi
  simp only [Packet.make, Packet.m, BitVec.getElem_extractLsb', BitVec.getLsbD_append]
  simp [hi, show ¬(8 + i < 8) by omega]

@[simp] theorem Packet.make_w : (Packet.make op m w a v).w = w := by
  ext i hi
  simp only [Packet.make, Packet.w, BitVec.getElem_extractLsb', BitVec.getLsbD_append]
  simp [hi, show ¬(16 + i < 8) by omega, show ¬(16 + i - 8 < 8) by omega,
    show 16 + i - 8 - 8 = i by omega]

@[simp] theorem Packet.make_z : (Packet.make op m w a v).z = 0 := by
  ext i hi
  simp only [Packet.make, Packet.z, BitVec.getElem_extractLsb', BitVec.getLsbD_append]
  simp [hi, show ¬(32 + i < 8) by omega, show ¬(32 + i - 8 < 8) by omega,
    show ¬(32 + i - 8 - 8 < 16) by omega, show 32 + i - 8 - 8 - 16 = i by omega]

@[simp] theorem Packet.make_a : (Packet.make op m w a v).a = a := by
  ext i hi
  simp only [Packet.make, Packet.a, BitVec.getElem_extractLsb', BitVec.getLsbD_append]
  simp [hi, show ¬(64 + i < 8) by omega, show ¬(64 + i - 8 < 8) by omega,
    show ¬(64 + i - 8 - 8 < 16) by omega, show ¬(64 + i - 8 - 8 - 16 < 32) by omega,
    show 64 + i - 8 - 8 - 16 - 32 = i by omega]

@[simp] theorem Packet.make_v : (Packet.make op m w a v).v = v := by
  ext i hi
  simp only [Packet.make, Packet.v, BitVec.getElem_extractLsb', BitVec.getLsbD_append]
  simp [hi, show ¬(128 + i < 8) by omega, show ¬(128 + i - 8 < 8) by omega,
    show ¬(128 + i - 8 - 8 < 16) by omega, show ¬(128 + i - 8 - 8 - 16 < 32) by omega,
    show ¬(128 + i - 8 - 8 - 16 - 32 < 64) by omega,
    show 128 + i - 8 - 8 - 16 - 32 - 64 = i by omega]

end

/-- A packet is its six fields (R70). -/
theorem Packet.append_fields (p : Packet) : p.v ++ p.a ++ p.z ++ p.w ++ p.m ++ p.op = p := by
  apply BitVec.eq_of_getLsbD_eq
  intro i hi
  simp only [Packet.z, Packet.op, Packet.m, Packet.w, Packet.a, Packet.v, BitVec.getLsbD_append,
    BitVec.getLsbD_extractLsb']
  split_ifs with h1 h2 h3 h4 h5
  · simp [h1]
  · simp [h2, show 8 + (i - 8) = i by omega]
  · simp [h3, show 16 + (i - 8 - 8) = i by omega]
  · simp [h4, show 32 + (i - 8 - 8 - 16) = i by omega]
  · simp [h5, show 64 + (i - 8 - 8 - 16 - 32) = i by omega]
  · simp [show 128 + (i - 8 - 8 - 16 - 32 - 64) = i by omega,
      show i - 8 - 8 - 16 - 32 - 64 < 128 by omega]

/-- A packet whose `Z` is zero is made of its other fields. -/
theorem Packet.make_fields {p : Packet} (h : p.z = 0) :
    Packet.make p.op p.m p.w p.a p.v = p := by
  have := p.append_fields
  rw [h] at this
  exact this

/-- Packets with the same fields are the same. -/
theorem Packet.ext_fields {p q : Packet} (hv : p.v = q.v) (ha : p.a = q.a) (hz : p.z = q.z)
    (hw : p.w = q.w) (hm : p.m = q.m) (hop : p.op = q.op) : p = q := by
  rw [← p.append_fields, ← q.append_fields, hv, ha, hz, hw, hm, hop]

/-- The field of a value in its range is that value (R72). -/
theorem toInt_ofInt_of_fitsSigned {b : Nat} (hb : 0 < b) {x : Int} (h : fitsSigned b x = true) :
    (BitVec.ofInt b x).toInt = x := by
  simp only [fitsSigned, Bool.and_eq_true, decide_eq_true_eq] at h
  rw [BitVec.toInt_ofInt]
  have h2 : (2 : Int) ^ b = 2 * 2 ^ (b - 1) := by
    rw [← pow_succ', show b - 1 + 1 = b by omega]
  rw [Int.bmod_eq_of_le] <;> push_cast <;> omega

/-- The value of a field is in its range (R72). -/
theorem fitsSigned_toInt {b : Nat} (x : BitVec b) : fitsSigned b x.toInt = true := by
  simp only [fitsSigned, Bool.and_eq_true, decide_eq_true_eq]
  exact ⟨BitVec.le_toInt x, BitVec.toInt_lt (x := x)⟩

/-! ## Selectors -/

theorem modeOfCode_code (m : Mode) : modeOfCode m.code = some m := by cases m <;> rfl

theorem csrOfIndex_index (c : Csr) : csrOfIndex c.index = some c := by cases c <;> rfl

theorem code_of_modeOfCode {b : BitVec 8} {m : Mode} (h : modeOfCode b = some m) : m.code = b := by
  unfold modeOfCode at h
  split at h <;> first | contradiction |
    (injection h with h; subst h; apply BitVec.eq_of_toNat_eq; rename_i hb; rw [hb]; rfl)

theorem index_of_csrOfIndex {b : BitVec 8} {c : Csr} (h : csrOfIndex b = some c) :
    c.index = b := by
  unfold csrOfIndex at h
  split at h <;> first | contradiction |
    (injection h with h; subst h; apply BitVec.eq_of_toNat_eq; rename_i hb; rw [hb]; rfl)

/-! ## Acceptance of a decoded packet (R78) -/

theorem Packet.accept_eq_ok {p : Packet} {unused : Bool} {i j : Instr} :
    p.accept unused i = .ok j ↔ p.z = 0 ∧ unused = true ∧ i = j := by
  unfold Packet.accept
  split_ifs with h <;> simp_all

theorem Packet.acceptSel_eq_ok {α : Type} {p : Packet} {sel : Option α} {unused : Bool}
    {i : α → Instr} {j : Instr} :
    p.acceptSel sel unused i = .ok j ↔ ∃ x, sel = some x ∧ p.z = 0 ∧ unused = true ∧ i x = j := by
  unfold Packet.acceptSel
  cases sel <;> simp [Packet.accept_eq_ok]

namespace Machine

/-! ## Responses (R74) -/

@[simp] theorem responseStatus_responsePacket (st : BitVec 8) (r : BitVec 128) :
    responseStatus (responsePacket st r) = st := by
  ext i hi
  simp only [responseStatus, responsePacket, BitVec.getElem_extractLsb', BitVec.getLsbD_append]
  simp [hi]

@[simp] theorem responseResult_responsePacket (st : BitVec 8) (r : BitVec 128) :
    responseResult (responsePacket st r) = r := by
  ext i hi
  simp only [responseResult, responsePacket, BitVec.getElem_extractLsb', BitVec.getLsbD_append]
  simp [hi, show ¬(128 + i < 8) by omega, show ¬(128 + i - 8 < 120) by omega,
    show 128 + i - 8 - 120 = i by omega]

/-- An error code is not OK. -/
theorem ErrorCode.code_ne_zero (c : ErrorCode) : c.code ≠ 0 := by cases c <;> decide

/-- No two errors share a code (R170). -/
theorem ErrorCode.code_injective {c d : ErrorCode} (h : c.code = d.code) : c = d := by
  revert h
  cases c <;> cases d <;> decide

end Machine

end Sys2Proof
end

