-- ==== Sys2Proof/Laws/PerInstr.lean ====
section
/-! SUPPORT. Statements for every command, one lemma per constructor. -/

namespace Sys2Proof.Laws

/-- The encoding of a command carries the command's opcode, and its reserved field is zero (R70, R76, R81). -/
def EncodedOp.Statement (i : Instr) : Prop :=
  (encode i).op = i.opcode ∧ (encode i).z = 0

theorem EncodedOp.nop : EncodedOp.Statement .nop := by simp [EncodedOp.Statement, encode]
theorem EncodedOp.clear : EncodedOp.Statement .clear := by simp [EncodedOp.Statement, encode]
theorem EncodedOp.rdcsr (csr : Csr) : EncodedOp.Statement (.rdcsr csr) := by
  simp [EncodedOp.Statement, encode]
theorem EncodedOp.pack (w s v : Int) : EncodedOp.Statement (.pack w s v) := by
  simp [EncodedOp.Statement, encode]
theorem EncodedOp.unpack (w s : Int) : EncodedOp.Statement (.unpack w s) := by
  simp [EncodedOp.Statement, encode]
theorem EncodedOp.scan (v : Int) : EncodedOp.Statement (.scan v) := by
  simp [EncodedOp.Statement, encode]
theorem EncodedOp.begin (mode : Mode) (k : Int) : EncodedOp.Statement (.begin mode k) := by
  simp [EncodedOp.Statement, encode]
theorem EncodedOp.begina (mode : Mode) : EncodedOp.Statement (.begina mode) := by
  simp [EncodedOp.Statement, encode]
theorem EncodedOp.push (v : Int) : EncodedOp.Statement (.push v) := by
  simp [EncodedOp.Statement, encode]
theorem EncodedOp.sealBuild : EncodedOp.Statement .sealBuild := by
  simp [EncodedOp.Statement, encode]
theorem EncodedOp.attach (mode : Mode) (k n : Int) : EncodedOp.Statement (.attach mode k n) := by
  simp [EncodedOp.Statement, encode]
theorem EncodedOp.get (i : Int) : EncodedOp.Statement (.get i) := by
  simp [EncodedOp.Statement, encode]
theorem EncodedOp.sbit (i : Int) : EncodedOp.Statement (.sbit i) := by
  simp [EncodedOp.Statement, encode]

end Sys2Proof.Laws
end

