-- ==== Sys2Proof/Laws/Step.lean ====
section
/-! SUPPORT. What a step can do, said once: the four ends of a step and the three ends of a command. -/

namespace Sys2Proof.Machine

/-- A step, by what waits at the port (R12, R78, R190). -/
theorem step_of_port (s : State) : step s =
    (match s.port with
    | [] => .next s
    | .packet p :: rest => runPacket p { s with port := rest }
    | .reset :: rest => .next ({ s with port := rest } : State).hostReset
    | .resetDuring _ :: rest => .next ({ s with port := rest } : State).hostReset) := by
  unfold step State.takeAction
  rcases s.port with _ | ⟨_ | _ | _, rest⟩ <;> rfl

/-- A packet that decodes runs its command. -/
theorem runPacket_of_ok {p : Packet} {i : Instr} (h : decode p = .ok i) (s : State) :
    runPacket p s = exec i s := by
  simp only [runPacket, h]

/-- A packet that does not decode answers its status. -/
theorem runPacket_of_error {p : Packet} {e : DecodeError} (h : decode p = .error e) (s : State) :
    runPacket p s = .next (s.failWith (decodeErrorCode e)) := by
  simp only [runPacket, h]

/-- Every command ends in a next state, in one of three ways: an error that changes only `ERR`; an error of `PUSH` in
phase BUILD, which kills the build too; or a response OK (R176, R177, R74). -/
theorem exec_cases (i : Instr) (s : State) : ∃ t, exec i s = .next t ∧
    ((∃ c, t = s.failWith c ∧ ∀ v, i = .push v → s.phase ≠ .build) ∨
      (∃ c v, i = .push v ∧ s.phase = .build ∧ t = s.failBuild c) ∨
      ∃ u r, t = State.respond u r) := by
  cases i <;> simp only [exec, execNop, execClear, execRdcsr, execPack, execUnpack, execScan,
    execBegin, execBegina, execPush, execSeal, execAttach, execGet, execSbit]
  all_goals repeat' split_ifs
  all_goals refine ⟨_, rfl, ?_⟩
  all_goals first
    | exact .inr (.inr ⟨_, _, rfl⟩)
    | (refine .inr (.inl ⟨_, _, rfl, ?_, rfl⟩)
       exact not_not.mp ‹_›)
    | (refine .inl ⟨_, rfl, fun _ h => ?_⟩
       first | assumption | contradiction)

/-- No command touches what waits at the port. -/
theorem exec_port {i : Instr} {s t : State} (h : exec i s = .next t) : t.port = s.port := by
  cases i <;> simp only [exec, execNop, execClear, execRdcsr, execPack, execUnpack, execScan,
    execBegin, execBegina, execPush, execSeal, execAttach, execGet, execSbit] at h
  all_goals repeat' split_ifs at h
  all_goals
    injection h with h
    subst h
    first | rfl | simp

end Sys2Proof.Machine
end

