-- ==== Sys2Proof/Tests/Slice0.lean ====
section
/-! SUPPORT. Tests: the checks of WellFormed, words written out from the encoding, single steps with the results the
spec's vectors give, and for every statement with hypotheses a state and operands that meet them. -/

namespace Sys2Proof.Tests

open Sys2Proof.Machine

/-! ## Small states (programs P3 and P4 of 95_test_vectors.md) -/

/-- RAW, one word `0x00BEEF00` (P3 row 1). -/
def rawState : State := { State.reset with
  len := 1, mem := [(1, 0xEF), (2, 0xBE)] }

/-- BUILD, crossing, width 9, the elements 1 and 300 (P4 row 16). -/
def buildState : State := { State.reset with
  phase := .build, k := 9, n := 2, pos := 18, len := 1, smax := 300, sany := true,
  mem := [(0, 0x01), (1, 0x58), (2, 0x02)] }

/-- SEALED, crossing, width 9, the elements 1, 300, 2 (P4 row 18). -/
def sealedState : State := { State.reset with
  phase := .sealed, k := 9, n := 3, pos := 27, len := 1, smax := 300, sany := true,
  mem := [(0, 0x01), (1, 0x58), (2, 0x0A)] }

/-- FAILED after `PUSH 300` into width 8 (P4 row 4). -/
def failedState : State := { State.reset with
  phase := .failed, k := 8, n := 1, pos := 8, len := 1, err := 0x11, mem := [(0, 0x01)] }

/-- SEALED, non-crossing, width 12, the elements 1, 5, 8 (P2 row 13, sealed). -/
def ncState : State := { State.reset with
  phase := .sealed, mode := .nonCrossing, k := 12, n := 3, pos := 44, len := 2,
  mem := [(0, 0x01), (1, 0x50), (4, 0x08)] }

theorem rawState_inv : rawState.Inv :=
  ⟨by decide, by decide, by decide, by decide, by decide, by decide, by decide, by decide, by decide,
    by decide, .inl rfl, by decide⟩

theorem buildState_inv : buildState.Inv :=
  ⟨by decide, by decide, by decide, by decide, by decide, by decide, by decide, by decide, by decide,
    by decide, .inl rfl, by decide⟩

theorem sealedState_inv : sealedState.Inv :=
  ⟨by decide, by decide, by decide, by decide, by decide, by decide, by decide, by decide, by decide,
    by decide, .inl rfl, by decide⟩

theorem failedState_inv : failedState.Inv :=
  ⟨by decide, by decide, by decide, by decide, by decide, by decide, by decide, by decide, by decide,
    by decide, .inr ⟨.noFit, rfl⟩, by decide⟩

theorem ncState_inv : ncState.Inv :=
  ⟨by decide, by decide, by decide, by decide, by decide, by decide, by decide, by decide, by decide,
    by decide, .inl rfl, by decide⟩

/-! ## WellFormed: each check refuses an operand outside its field (R72) -/

theorem test_wf_width :
    Instr.wf (.pack 32767 0 0) = true ∧ Instr.wf (.pack (-32768) 0 0) = true ∧
    Instr.wf (.pack 32768 0 0) = false ∧ Instr.wf (.pack (-32769) 0 0) = false ∧
    Instr.wf (.unpack 32768 0) = false ∧ Instr.wf (.begin .crossing 32768) = false ∧
    Instr.wf (.attach .crossing (-32769) 0) = false := by decide

theorem test_wf_address :
    Instr.wf (.pack 0 (2 ^ 63 - 1) 0) = true ∧ Instr.wf (.pack 0 (-2 ^ 63) 0) = true ∧
    Instr.wf (.pack 0 (2 ^ 63) 0) = false ∧ Instr.wf (.unpack 0 (-2 ^ 63 - 1)) = false ∧
    Instr.wf (.attach .nonCrossing 0 (2 ^ 63)) = false ∧ Instr.wf (.get (2 ^ 63)) = false ∧
    Instr.wf (.sbit (-2 ^ 63 - 1)) = false := by decide

theorem test_wf_value :
    Instr.wf (.scan (2 ^ 127 - 1)) = true ∧ Instr.wf (.scan (-2 ^ 127)) = true ∧
    Instr.wf (.scan (2 ^ 127)) = false ∧ Instr.wf (.push (-2 ^ 127 - 1)) = false ∧
    Instr.wf (.pack 0 0 (2 ^ 127)) = false := by decide

/-! ## Decoding words written out from the encoding: `V A Z W M OP` (T1.1, T1.2) -/

theorem test_decode_nop : decode
    0x00000000000000000000000000000000_0000000000000000_00000000_0000_00_00 = .ok .nop := by rfl
theorem test_decode_clear : decode
    0x00000000000000000000000000000000_0000000000000000_00000000_0000_00_01 = .ok .clear := by rfl
theorem test_decode_rdcsr : decode
    0x00000000000000000000000000000000_0000000000000000_00000000_0000_0A_02 = .ok (.rdcsr .cap) := by
  rfl
theorem test_decode_pack : decode
    0x00000000000000000000000000000ABC_0000000000000024_00000000_000C_00_10
      = .ok (.pack 12 36 0xABC) := by rfl
theorem test_decode_pack_negative : decode
    0xFFFFFFFFFFFFFFFFFFFFFFFFFFFFFFFF_FFFFFFFFFFFFFFFF_00000000_FFFF_00_10
      = .ok (.pack (-1) (-1) (-1)) := by rfl
theorem test_decode_unpack : decode
    0x00000000000000000000000000000000_8000000000000000_00000000_0040_00_11
      = .ok (.unpack 64 (-2 ^ 63)) := by rfl
theorem test_decode_scan : decode
    0x0000000000000000FFFFFFFFFFFFFFFF_0000000000000000_00000000_0000_00_20
      = .ok (.scan (2 ^ 64 - 1)) := by rfl
theorem test_decode_begin : decode
    0x00000000000000000000000000000000_0000000000000000_00000000_000C_01_21
      = .ok (.begin .nonCrossing 12) := by rfl
theorem test_decode_begina : decode
    0x00000000000000000000000000000000_0000000000000000_00000000_0000_01_22
      = .ok (.begina .nonCrossing) := by rfl
theorem test_decode_push : decode
    0x0000000000000000000000000000012C_0000000000000000_00000000_0000_00_23 = .ok (.push 300) := by
  rfl
theorem test_decode_seal : decode
    0x00000000000000000000000000000000_0000000000000000_00000000_0000_00_24 = .ok .sealBuild := by
  rfl
theorem test_decode_attach : decode
    0x00000000000000000000000000000000_0000000000000008_00000000_000C_01_25
      = .ok (.attach .nonCrossing 12 8) := by rfl
theorem test_decode_get : decode
    0x00000000000000000000000000000000_0000000000000003_00000000_0000_00_30 = .ok (.get 3) := by rfl
theorem test_decode_sbit : decode
    0x00000000000000000000000000000000_0000000000000007_00000000_0000_00_31 = .ok (.sbit 7) := by rfl

/-- T1.3: unassigned opcodes; the opcode is looked at before the fields. -/
theorem test_decode_illegal_op :
    decode 0x03 = .error .illegalOp ∧ decode 0x26 = .error .illegalOp ∧
    decode 0xFF = .error .illegalOp ∧ decode 0x1000003 = .error .illegalOp := by
  refine ⟨?_, ?_, ?_, ?_⟩ <;> rfl

/-- T1.3: `Z`, an unused field, a reserved mode, a reserved register index. -/
theorem test_decode_illegal_field :
    decode 0x100000000 = .error .illegalField ∧ decode 0x100 = .error .illegalField ∧
    decode 0x10020 = .error .illegalField ∧ decode 0x221 = .error .illegalField ∧
    decode 0xB02 = .error .illegalField := by
  refine ⟨?_, ?_, ?_, ?_, ?_⟩ <;> rfl

/-- R81: the encoder, on the command of P3 row 2. -/
theorem test_encode_pack : encode (.pack 40 28 0x123456789A) =
    0x0000000000000000000000123456789A_000000000000001C_00000000_0028_00_10 := by rfl

/-- R71: 32 bytes carry a packet, no other number does; byte 0 is the opcode. -/
theorem test_packet_bytes :
    decodeBytes (0x02 :: 0x04 :: List.replicate 30 0) = some (.ok (.rdcsr .len)) ∧
    decodeBytes (0x02 :: 0x04 :: List.replicate 29 0) = none := by
  constructor <;> rfl

/-- R82: commands as the spec writes them. -/
theorem test_assembly :
    Instr.asm .sealBuild = "SEAL" ∧ Instr.asm (.pack 12 36 2748) = "PACK 12, 36, 2748" ∧
    Instr.asm (.attach .nonCrossing 12 8) = "ATTACH NC, 12, 8" ∧
    Instr.asm (.rdcsr .phase) = "RDCSR PHASE" := by decide

/-! ## Single steps -/

/-- T7.1: `NOP` in FAILED answers OK and leaves `ERR`. -/
theorem test_nop : step { failedState with port := [.packet 0] } =
    .next { failedState with resp := some 0 } := by rfl

/-- P4 row 10: `CLEAR` recovers from FAILED. -/
theorem test_clear : step { failedState with port := [.packet 1] } =
    .next { State.reset with resp := some 0 } := by rfl

/-- P4 rows 5 and 6: the registers of a dead build. -/
theorem test_rdcsr :
    exec (.rdcsr .phase) failedState = .next (failedState.answered 3) ∧
    exec (.rdcsr .err) failedState = .next (failedState.answered 0x11) := by constructor <;> rfl

/-- P3 row 1. -/
theorem test_pack : exec (.pack 16 8 0xBEEF) State.reset = .next (rawState.answered 0) := by rfl

/-- P3 row 2: a field over three words, `W = [A0BEEF00, 23456789, 00000001]`. -/
theorem test_pack_three_words : exec (.pack 40 28 0x123456789A) rawState =
    .next ({ rawState with
      len := 3,
      mem := [(1, 0xEF), (2, 0xBE), (3, 0xA0), (4, 0x89), (5, 0x67), (6, 0x45), (7, 0x23), (8, 0x01)] }
      |>.answered 0) := by rfl

/-- P3 row 4; and beyond the array every bit reads 0. -/
theorem test_unpack :
    exec (.unpack 16 8) rawState = .next (rawState.answered 0xBEEF) ∧
    exec (.unpack 64 20) rawState = .next (rawState.answered 0xB) := by constructor <;> rfl

/-- P4 row 13: a smaller value leaves the maximum. -/
theorem test_scan :
    exec (.scan 300) State.reset =
      .next ({ State.reset with smax := 300, sany := true } |>.answered 0) ∧
    exec (.scan 2) { State.reset with smax := 300, sany := true } =
      .next ({ State.reset with smax := 300, sany := true } |>.answered 0) := by constructor <;> rfl

/-- P4 row 2. -/
theorem test_begin : exec (.begin .crossing 8) State.reset =
    .next ({ State.reset with phase := .build, k := 8 } |>.answered 0) := by rfl

/-- P2 row 10: the derived width is 12 and is answered; an empty list has width 0. -/
theorem test_begina :
    exec (.begina .nonCrossing) { State.reset with smax := 4095, sany := true } =
      .next ({ State.reset with
        phase := .build, mode := .nonCrossing, k := 12, smax := 4095, sany := true }
        |>.answered 12) ∧
    exec (.begina .crossing) State.reset =
      .next ({ State.reset with phase := .build } |>.answered 0) := by constructor <;> rfl

/-- P4 row 17. -/
theorem test_push : exec (.push 2) buildState =
    .next ({ sealedState with phase := .build } |>.answered 0) := by rfl

/-- P2 row 13: the third element of width 12 goes to the next word. -/
theorem test_push_skips_padding : exec (.push 8)
      { ncState with phase := .build, n := 2, pos := 24, len := 1, mem := [(0, 0x01), (1, 0x50)] } =
    .next ({ ncState with phase := .build } |>.answered 0) := by rfl

/-- P4 row 18. -/
theorem test_seal : exec .sealBuild { sealedState with phase := .build } =
    .next (sealedState.answered 0) := by rfl

/-- P5 row 6, with the count of three elements. -/
theorem test_attach : exec (.attach .nonCrossing 12 3)
      { State.reset with len := 2, mem := ncState.mem } = .next (ncState.answered 0) := by rfl

/-- P4 row 20 and P2 row 23. -/
theorem test_get :
    exec (.get 1) sealedState = .next (sealedState.answered 300) ∧
    exec (.get 2) ncState = .next (ncState.answered 8) := by constructor <;> rfl

/-- P2 row 31. -/
theorem test_sbit :
    exec (.sbit 2) ncState = .next (ncState.answered 32) ∧
    exec (.sbit 2) sealedState = .next (sealedState.answered 18) := by constructor <;> rfl

/-- R84: the expansion of `FROM_LIST`. -/
theorem test_from_list : fromList .crossing [1, 300] =
    [.clear, .scan 1, .scan 300, .begina .crossing, .push 1, .push 300, .sealBuild] := by decide

/-! ## Hypotheses of the statements can be met, clause by clause, at boundary values -/

theorem witness_DecodeAfterEncode :
    Instr.wf (.pack (-32768) (2 ^ 63 - 1) (-2 ^ 127)) = true := by decide

theorem witness_EncodeAfterDecode : decode 0x402 = .ok (.rdcsr .len) := by rfl

theorem witness_DecoderFollowsMaskTable :
    (⟨"RDCSR", 0xFFFFFFFFFFFFFFFFFFFFFFFFFFFFFFFFFFFFFFFFFFFFFFFFFFFFFFFFFFFF00FF, 0x02, 11⟩ :
      OpcodeRow) ∈ opcodeRows ∧
    (∃ r ∈ opcodeRows, r.admits 0xA02 = true) ∧ ∀ r ∈ opcodeRows, r.admits 0xB02 = false := by
  decide

theorem witness_IllegalPacketsByCause :
    decode 0x32 = .error .illegalOp ∧ decode 0x131 = .error .illegalField := by constructor <;> rfl

theorem witness_PacketBytesLittleEndian :
    packetOfBytes (0x25 :: List.replicate 31 0) = some 0x25 := by rfl

theorem witness_StepRunsDecodedCommand :
    State.port { rawState with port := [.packet 0x402] } = .packet 0x402 :: [] ∧
    decode 0x402 = .ok (.rdcsr .len) := by constructor <;> rfl

theorem witness_StepRejectsIllegalPacket :
    State.port { rawState with port := [.packet 0x03] } = .packet 0x03 :: [] ∧
    decode 0x03 = .error .illegalOp ∧
    State.port { rawState with port := [.packet 0x100] } = .packet 0x100 :: [] ∧
    decode 0x100 = .error .illegalField := by refine ⟨?_, ?_, ?_, ?_⟩ <;> rfl

theorem witness_HostResetStep :
    State.port { sealedState with port := [.reset] } = .reset :: [] ∧
    State.port { buildState with port := [.resetDuring 0x24] } = .resetDuring 0x24 :: [] := by
  constructor <;> rfl

theorem witness_IdleBlockWaits : sealedState.port = [] := by rfl

theorem witness_EveryPacketGetsOneResponse :
    State.port { failedState with port := [.packet 0x24, .reset] } = .packet 0x24 :: [.reset] := by rfl

/-- Width 0; the widest field ending at the last bit the capacity of 8 words allows. -/
theorem witness_PackWritesField :
    State.reset.mem.wf ∧ State.reset.packable (2 ^ 63 - 1) 0 0 ∧
    State.reset.packable 192 64 (2 ^ 64 - 1) :=
  ⟨by decide, ⟨rfl, by decide, by decide, by decide⟩, ⟨rfl, by decide, by decide, by decide⟩⟩

theorem witness_UnpackAnswersField :
    (rawState.phase = .raw ∧ 64 ≤ 64) ∧ (sealedState.phase = .sealed ∧ 0 ≤ 64) := by decide

theorem witness_ScanFoldsMaximum : State.reset.phase = .raw ∧ 2 ^ 64 - 1 < 2 ^ 64 := by decide

theorem witness_BeginStartsBuild :
    State.reset.phase = .raw ∧ State.reset.len = 0 ∧
    64 ≤ (match Mode.crossing with | .crossing => 64 | .nonCrossing => 32) ∧
    32 ≤ (match Mode.nonCrossing with | .crossing => 64 | .nonCrossing => 32) := by decide

/-- The empty list; and the largest value a non-crossing structure can hold. -/
theorem witness_BeginaStartsBuild :
    State.reset.phase = .raw ∧ State.reset.len = 0 ∧
    kderive State.reset.sany State.reset.smax.toNat ≤ 32 ∧
    kderive true (0xFFFFFFFF : BitVec 64).toNat ≤ 32 := by decide

/-- The largest value of width 9; and the last element that fits a capacity of 8 words. -/
theorem witness_PushPlacesElement :
    buildState.mem.wf ∧ buildState.pushable 511 ∧
    State.pushable { buildState with n := 27, pos := 247, len := 8 } 0 :=
  ⟨by decide, ⟨rfl, by decide, by decide, by decide, by decide⟩,
    ⟨rfl, by decide, by decide, by decide, by decide⟩⟩

theorem witness_SealEndsBuild : buildState.phase = .build := by rfl

theorem witness_AttachAdoptsArray :
    rawState.phase = .raw ∧
    (64 ≤ (match Mode.crossing with | .crossing => 64 | .nonCrossing => 32) ∧ 2 ^ 32 - 1 < 2 ^ 32) ∧
    (0 ≤ (match Mode.nonCrossing with | .crossing => 64 | .nonCrossing => 32) ∧
      ((0 : Nat) = 0 → (0 : Nat) = 0)) := by decide

theorem witness_GetAnswersElement :
    sealedState.phase = .sealed ∧ 0 < sealedState.n.toNat ∧ 2 < sealedState.n.toNat ∧
    sealedState.k.toNat ≤ 64 := by decide

theorem witness_SbitAnswersStartBit :
    (sealedState.phase = .sealed ∧ 2 < sealedState.n.toNat) ∧
    (ncState.phase = .sealed ∧ 2 < ncState.n.toNat) := by decide

theorem witness_GetEqualsUnpackAtSbit :
    ncState.phase = .sealed ∧ 2 < ncState.n.toNat ∧ ncState.k.toNat ≤ 64 := by decide

/-- Each error of `PACK` and `UNPACK`, with later conditions failing too (T2.6, T2.7). -/
theorem witness_BitstreamErrors :
    rawState.phase = .raw ∧ sealedState.phase = .sealed ∧
    exec (.pack (-1) (-1) (-1)) rawState = .next (rawState.afterError 0x12) ∧
    exec (.pack 65 (-1) (-1)) rawState = .next (rawState.afterError 0x13) ∧
    exec (.pack 64 (-1) (-1)) rawState = .next (rawState.afterError 0x14) ∧
    exec (.pack 0 0 (-1)) rawState = .next (rawState.afterError 0x10) ∧
    exec (.pack 0 0 1) rawState = .next (rawState.afterError 0x11) ∧
    exec (.pack 1 256 0) rawState = .next (rawState.afterError 0x70) ∧
    exec (.unpack (-1) (-1)) sealedState = .next (sealedState.afterError 0x12) ∧
    exec (.unpack 65 (-1)) sealedState = .next (sealedState.afterError 0x13) ∧
    exec (.unpack 0 (-1)) sealedState = .next (sealedState.afterError 0x14) := by
  refine ⟨?_, ?_, ?_, ?_, ?_, ?_, ?_, ?_, ?_, ?_, ?_⟩ <;> rfl

/-- Each error of `SCAN`, `BEGIN`, `BEGINA` (T3.2, T6.3). -/
theorem witness_BuildStartErrors :
    rawState.phase = .raw ∧ rawState.len ≠ 0 ∧ State.reset.len = 0 ∧
    exec (.scan (-1)) rawState = .next (rawState.afterError 0x10) ∧
    exec (.scan (2 ^ 64)) rawState = .next (rawState.afterError 0x13) ∧
    exec (.begin .crossing (-1)) rawState = .next (rawState.afterError 0x61) ∧
    exec (.begina .crossing) rawState = .next (rawState.afterError 0x61) ∧
    exec (.begin .crossing (-1)) State.reset = .next (State.reset.afterError 0x12) ∧
    exec (.begin .crossing 65) State.reset = .next (State.reset.afterError 0x13) ∧
    exec (.begin .nonCrossing 33) State.reset = .next (State.reset.afterError 0x13) ∧
    32 < kderive true (0x100000000 : BitVec 64).toNat := by
  refine ⟨rfl, by decide, rfl, ?_, ?_, ?_, ?_, ?_, ?_, ?_, by decide⟩ <;> rfl

/-- Each error of `PUSH` (T6.4 to T6.6). -/
theorem witness_PushErrorsKillBuild :
    buildState.phase = .build ∧ buildState.k ≠ 0 ∧
    exec (.push (-1)) buildState =
      .next ({ buildState with phase := .failed } |>.afterError 0x10) ∧
    exec (.push 0) { buildState with k := 0 } =
      .next ({ buildState with k := 0, phase := .failed } |>.afterError 0x15) ∧
    exec (.push 512) buildState =
      .next ({ buildState with phase := .failed } |>.afterError 0x11) ∧
    exec (.push 0) { buildState with n := 0xFFFFFFFF } =
      .next ({ buildState with n := 0xFFFFFFFF, phase := .failed } |>.afterError 0x71) ∧
    exec (.push 0) { buildState with n := 28, pos := 252, len := 8 } =
      .next ({ buildState with n := 28, pos := 252, len := 8, phase := .failed }
        |>.afterError 0x70) := by
  refine ⟨rfl, by decide, ?_, ?_, ?_, ?_, ?_⟩ <;> rfl

/-- Each error of `ATTACH`, `GET`, `SBIT` (T6.7, P1 row 41). -/
theorem witness_StructureErrors :
    rawState.phase = .raw ∧ sealedState.phase = .sealed ∧
    exec (.attach .crossing (-1) (-1)) rawState = .next (rawState.afterError 0x12) ∧
    exec (.attach .crossing 65 (-1)) rawState = .next (rawState.afterError 0x13) ∧
    exec (.attach .nonCrossing 33 0) rawState = .next (rawState.afterError 0x13) ∧
    exec (.attach .crossing 0 (-1)) rawState = .next (rawState.afterError 0x16) ∧
    exec (.attach .crossing 0 (2 ^ 32)) rawState = .next (rawState.afterError 0x16) ∧
    exec (.attach .crossing 0 1) rawState = .next (rawState.afterError 0x15) ∧
    exec (.get (-1)) sealedState = .next (sealedState.afterError 0x20) ∧
    exec (.get 3) sealedState = .next (sealedState.afterError 0x20) ∧
    exec (.sbit 3) sealedState = .next (sealedState.afterError 0x20) := by
  refine ⟨?_, ?_, ?_, ?_, ?_, ?_, ?_, ?_, ?_, ?_, ?_⟩ <;> rfl

theorem witness_PhaseTable :
    acceptedIn (.get 0) rawState.phase = false ∧ acceptedIn .sealBuild failedState.phase = false ∧
    (acceptedIn (.push 2) buildState.phase = true ∧
      ∃ t q, exec (.push 2) buildState = .next t ∧ t.resp = some q) ∧
    (rawState.phase = .raw ∧ rawState.len ≠ 0 ∧ (Instr.begina .crossing).mnemonic = "BEGINA") :=
  ⟨by decide, by decide, ⟨by decide, _, _, rfl, rfl⟩, rfl, by decide, rfl⟩

/-- A failing `PUSH` in BUILD; and a failing packet elsewhere. -/
theorem witness_FailingCommandChangesOnlyErr :
    (∃ t q, runPacket (encode (.push 512)) buildState = .next t ∧ t.resp = some q ∧
      responseStatus q ≠ 0 ∧ decode (encode (.push 512)) = .ok (.push 512) ∧
      buildState.phase = .build) ∧
    ∃ t q, runPacket 0x32 sealedState = .next t ∧ t.resp = some q ∧ responseStatus q ≠ 0 :=
  ⟨⟨_, _, rfl, rfl, by decide, rfl, rfl⟩, _, _, rfl, rfl, by decide⟩

/-- A `CLEAR`; a second error, which `ERR` does not take. -/
theorem witness_ErrKeepsFirstError :
    (∃ t, runPacket 0x01 failedState = .next t ∧ decode 0x01 = .ok .clear) ∧
    ∃ t q, runPacket 0x24 failedState = .next t ∧ decode 0x24 ≠ .ok .clear ∧ t.resp = some q ∧
      responseStatus q = 0x60 ∧ t.err = 0x11 :=
  ⟨⟨_, rfl, rfl⟩, _, _, rfl, by decide, rfl, by decide, rfl⟩

theorem witness_PhaseTransitions : ∃ t, exec (.push 512) buildState = .next t ∧ t.phase = .failed :=
  ⟨_, rfl, rfl⟩

theorem witness_ArrayWrittenByPackAndPushOnly :
    (mayWriteArray .sealBuild = false ∧ ∃ t, exec .sealBuild buildState = .next t) ∧
    (sealedState.phase = .sealed ∧ ∃ t, exec (.pack 1 0 1) sealedState = .next t) ∧
    ∃ t, exec (.pack 1 255 0) rawState = .next t ∧ t.len = 8 :=
  ⟨⟨rfl, _, rfl⟩, ⟨rfl, _, rfl⟩, _, rfl, rfl⟩

theorem witness_ReadsArePure :
    (∃ t q, exec (.get 2) sealedState = .next t ∧ t.resp = some q ∧ responseStatus q = 0) ∧
    ∃ t q, exec (.get 3) sealedState = .next t ∧ t.resp = some q ∧ responseStatus q ≠ 0 :=
  ⟨⟨_, _, rfl, rfl, by decide⟩, _, _, rfl, rfl, by decide⟩

theorem witness_ConstantsNeverChange :
    ∃ t, step { sealedState with cap := 1, port := [.resetDuring 0] } = .next t ∧ t.cap = 1 :=
  ⟨_, rfl, rfl⟩

theorem witness_CommandIgnoresPort : ∃ t, exec (.push 2) buildState = .next t := ⟨_, rfl⟩

theorem witness_KderiveIsLeastWidth : 1 ≤ 8 ∧ (∀ v ≤ 255, v < 2 ^ 8) :=
  ⟨by decide, fun v h => by omega⟩

/-- An aligned cursor, one that exactly fits, one that does not (T5.2). -/
theorem witness_NcplaceAvoidsStraddling :
    1 ≤ 12 ∧ 12 ≤ 32 ∧ ncplace 32 32 = 32 ∧ ncplace 20 12 = 20 ∧ ncplace 21 12 = 32 := by decide

/-- The widths at the ends of the range, and start bits of P2. -/
theorem witness_NoncrossingClosedFormIsReplay :
    1 ≤ 1 ∧ 32 ≤ 32 ∧ ncstart 7 12 = 108 ∧ ncReplayStart 12 7 = 108 ∧ ncpos 8 12 = 120 := by decide

theorem witness_NoncrossingLayoutInvariants :
    1 ≤ 31 ∧ 31 ≤ 32 ∧ 31 ∉ [1, 2, 4, 8, 16, 32] := by decide

theorem witness_NoncrossingSize : 1 ≤ 12 ∧ 12 ≤ 32 ∧ ceilDiv (ncpos 8 12) 32 = 4 := by decide

theorem witness_CursorMeetsElementStarts :
    1 ≤ 64 ∧ 64 ≤ kMax .crossing ∧ 32 ≤ kMax .nonCrossing := by decide

theorem witness_ChunkLoopsEqualSums : rawState.mem.wf ∧ ceilDiv (28 + 40) 32 < 2 ^ 32 := by decide

theorem witness_OneChunkPerWordTouched :
    wordsTouched 31 32 = 2 ∧ 32 ≤ 32 ∧ wordsTouched 31 64 = 3 ∧ 64 ≤ 64 := by decide

/-- A field that touches the packed one on either side. -/
theorem witness_PackReadsBack :
    rawState.mem.wf ∧ rawState.packable 28 40 0x123456789A ∧
    (16 ≤ 64 ∧ 12 + 16 ≤ 28 ∧ ∃ u, exec (.unpack 16 12) rawState = .next u) ∧
    (64 ≤ 64 ∧ 28 + 40 ≤ 68 ∧ ∃ u, exec (.unpack 64 68) rawState = .next u) :=
  ⟨by decide, ⟨rfl, by decide, by decide, by decide⟩, ⟨by decide, by decide, _, rfl⟩, by decide,
    by decide, _, rfl⟩

theorem witness_PackOverwrites :
    rawState.Inv ∧ State.Inv { rawState with mem := [] } ∧ rawState.packable 8 16 0xBEEF ∧
    (∀ b, b < 8 ∨ 8 + 16 ≤ b → State.bit { rawState with mem := [] } b = rawState.bit b) ∧ 0 < 16 := by
  refine ⟨rawState_inv, ⟨by decide, by decide, by decide, by decide, by decide, by decide, by decide,
    by decide, by decide, by decide, .inl rfl, by decide⟩,
    ⟨rfl, by decide, by decide, by decide⟩, fun b hb => ?_, by decide⟩
  by_cases h : b < 32
  · have key : ∀ b < 32, b < 8 ∨ 24 ≤ b →
        State.bit { rawState with mem := [] } b = rawState.bit b := by decide
    exact key b h hb
  · simp only [State.bit]
    rw [if_neg (by simp [rawState]; omega), if_neg (by simp [rawState]; omega)]

theorem witness_PacksCommute :
    rawState.Inv ∧ rawState.packable 28 4 0xA ∧ rawState.packable 32 64 5 ∧ 28 + 4 ≤ 32 :=
  ⟨rawState_inv, ⟨rfl, by decide, by decide, by decide⟩, ⟨rfl, by decide, by decide, by decide⟩,
    by decide⟩

theorem witness_StepKeepsInvariants :
    State.Inv { buildState with port := [.packet (encode (.push 512))] } ∧
    ∃ t, step { buildState with port := [.packet (encode (.push 512))] } = .next t :=
  ⟨⟨by decide, by decide, by decide, by decide, by decide, by decide, by decide, by decide, by decide,
    by decide, .inl rfl, by decide⟩, _, rfl⟩

theorem witness_ResetMeetsInvariants : (1 : BitVec 32) ≠ 0 ∧ (0xFFFFFFFF : BitVec 32) ≠ 0 := by decide

/-- The state of a fresh build, which has no element and no word. -/
theorem witness_BuildKeepsPaddingZero :
    let s : State := { State.reset with phase := .build, k := 9, port := [.packet 0x24] }
    s.Inv ∧ (s.phase = .build ∨ s.phase = .failed → s.paddingZero) ∧
    ∃ t, step s = .next t ∧ t.phase = .sealed := by
  refine ⟨⟨by decide, by decide, by decide, by decide, by decide, by decide, by decide, by decide,
    by decide, by decide, .inl rfl, by decide⟩, fun _ b h => ?_, _, rfl, rfl⟩
  simp [State.bit, State.reset, State.resetWith] at h

theorem witness_PushKeepsEarlierElements : buildState.Inv ∧ buildState.pushable 511 :=
  ⟨buildState_inv, rfl, by decide, by decide, by decide, by decide⟩

theorem witness_RoundTripDerivedWidth :
    (∀ v ∈ [1, 300, 0xFFFFFFFF], v < 2 ^ (match Mode.nonCrossing with
      | .crossing => 64
      | .nonCrossing => 32)) ∧ [1, 300, 0xFFFFFFFF].length < 2 ^ 32 ∧
    ceilDiv (epos .nonCrossing (kderive true (([1, 300, 0xFFFFFFFF] : List Nat).foldr max 0)) 3) 32
      ≤ State.reset.cap.toNat := by decide

theorem witness_RoundTripSuppliedWidth :
    64 ≤ (match Mode.crossing with | .crossing => 64 | .nonCrossing => 32) ∧
    ([3, 2 ^ 64 - 1] ≠ [] → 1 ≤ 64) ∧ (∀ v ∈ [3, 2 ^ 64 - 1], v < 2 ^ 64) ∧
    [3, 2 ^ 64 - 1].length < 2 ^ 32 ∧
    ceilDiv (epos .crossing 64 [3, 2 ^ 64 - 1].length) 32 ≤ State.reset.cap.toNat := by decide

theorem witness_ReloadRestoresStructure : sealedState.Inv ∧ sealedState.phase = .sealed :=
  ⟨sealedState_inv, rfl⟩

end Sys2Proof.Tests
end

section
/-! The step at an empty port and at a port with a packet next (00_scope.md R12). -/

namespace Sys2Proof.Machine

/-- With no action waiting the block waits (assumption 3). -/
theorem step_of_idle {s : State} (hport : s.port = []) : step s = .next s := by
  simp only [step_of_port, hport]

/-- A packet next at the port is taken from it and run, whether or not it decodes (R12, R78). -/
theorem step_of_packet {s : State} {p : Packet} {rest : List HostAction}
    (hport : s.port = .packet p :: rest) : step s = runPacket p { s with port := rest } := by
  simp only [step_of_port, hport]

/-- Settles O8: the step runs the packet, and a packet that decodes runs its command. -/
theorem stepRunsDecodedCommand : Obligations.StepRunsDecodedCommand := by
  intro s p rest i hport hdecode
  calc step s = runPacket p { s with port := rest } := step_of_packet hport
    _ = exec i { s with port := rest } := runPacket_of_ok hdecode _

/-- Settles O12: the branch of the step where the port is empty. -/
theorem idleBlockWaits : Obligations.IdleBlockWaits :=
  fun _ hport => step_of_idle hport

end Sys2Proof.Machine
end

section
/-! How a command ends, said once: refused by the phase table, ended by another check, a build killed, or completed with
one of a few effects. What every command keeps is then one case per way to end (10_state.md R26, R30, R31). -/

namespace Sys2Proof.Machine

/-- The effect of a completed command on the block, its response aside. -/
inductive Completes (s : State) : Instr → State → Prop
  /-- `NOP`, `RDCSR`, `UNPACK`, `GET`, `SBIT`, and a `PACK` of width 0. -/
  | unchanged {i : Instr} (hclear : i ≠ .clear) (hpush : ∀ v, i ≠ .push v) : Completes s i s
  /-- `CLEAR`: the reset state (R160). -/
  | clear : Completes s .clear s.clearAll
  /-- `PACK` of a width from 1 up, within the capacity (R95). -/
  | pack {w a v : Int} (hphase : s.phase = .raw) (hw : 0 < w)
      (hcap : wordsNeeded a.toNat w.toNat ≤ s.cap.toNat) :
      Completes s (.pack w a v) (s.pack a.toNat v.toNat w.toNat)
  /-- `SCAN`: the accumulators of R29 are written (R136). -/
  | scan {v : Int} (hphase : s.phase = .raw) (m : BitVec 64) :
      Completes s (.scan v) { s with smax := m, sany := true }
  /-- `BEGIN` over an empty array, the width legal for the layout (R137). -/
  | begin {md : Mode} {k : Int} (hphase : s.phase = .raw) (hlen : s.len = 0)
      (hk : k.toNat ≤ kMax md) : Completes s (.begin md k) (s.startBuild md k.toNat)
  /-- `BEGINA` over an empty array, the derived width legal for the layout (R138). -/
  | begina {md : Mode} (hphase : s.phase = .raw) (hlen : s.len = 0)
      (hk : kderive s.sany s.smax.toNat ≤ kMax md) :
      Completes s (.begina md) (s.startBuild md (kderive s.sany s.smax.toNat))
  /-- `PUSH` that passes every check (R139). -/
  | push {v : Int} (hpush : s.pushable v.toNat) :
      Completes s (.push v) (s.placeElement v.toNat)
  /-- `SEAL` (R140). -/
  | sealBuild (hphase : s.phase = .build) : Completes s .sealBuild { s with phase := .sealed }
  /-- `ATTACH` of a legal width and count (R141). -/
  | attach {md : Mode} {k n : Int} (hphase : s.phase = .raw) (hk : k.toNat ≤ kMax md)
      (hn : n.toNat < 2 ^ 32) (hzero : k.toNat = 0 → n.toNat = 0) :
      Completes s (.attach md k n) { s with
        mode := md, k := BitVec.ofNat 16 k.toNat, n := BitVec.ofNat 32 n.toNat,
        pos := BitVec.ofNat 64 (epos md k.toNat n.toNat), phase := .sealed }

/-- The ways a command can end (R30, R74, R176, R177). -/
inductive Ends (i : Instr) (s : State) : State → Prop
  /-- The phase table refuses the command. -/
  | refused (htable : acceptedIn i s.phase = false) : Ends i s (s.failWith .phase)
  /-- Another check fails; only `ERR` is written. -/
  | failed (c : ErrorCode) (htable : acceptedIn i s.phase = true) (hc : c ≠ .phase)
      (hpush : ∀ v, i ≠ .push v) : Ends i s (s.failWith c)
  /-- A `PUSH` in BUILD fails a check: the build is dead as well. -/
  | killed (c : ErrorCode) (v : Int) (hpush : i = .push v) (hphase : s.phase = .build)
      (hc : c ≠ .phase) : Ends i s (s.failBuild c)
  /-- Every check passes: the effect, then the response OK. -/
  | completed {u : State} (r : BitVec 128) (htable : acceptedIn i s.phase = true)
      (heffect : Completes s i u) : Ends i s (u.respond r)

/-- A command the phase table refuses ends with `E_PHASE` (R30). -/
theorem exec_of_refused {i : Instr} {s : State} (htable : acceptedIn i s.phase = false) :
    exec i s = .next (s.failWith .phase) := by
  cases i <;> simp_all [acceptedIn, exec, execPack, execUnpack, execScan, execBegin, execBegina,
    execPush, execSeal, execAttach, execGet, execSbit]

/-! ## The ends of each command the phase table accepts, check by check -/

theorem execPack_ends {w a v : Int} {s t : State} (hphase : s.phase = .raw)
    (h : execPack w a v s = .next t) : Ends (.pack w a v) s t := by
  have htable : acceptedIn (.pack w a v) s.phase = true := by simp [acceptedIn, hphase]
  unfold execPack at h
  split_ifs at h with hph hneg hmax hstart hval hfit hzero hcap <;> injection h with h <;> subst h
  · exact absurd hphase hph
  iterate 5 · exact .failed _ htable (by decide) (by simp)
  · exact .completed _ htable (.unchanged (by simp) (by simp))
  · exact .failed _ htable (by decide) (by simp)
  · exact .completed _ htable (.pack hphase (by omega) (by omega))

theorem execUnpack_ends {w a : Int} {s t : State} (hphase : s.phase = .raw ∨ s.phase = .sealed)
    (h : execUnpack w a s = .next t) : Ends (.unpack w a) s t := by
  have htable : acceptedIn (.unpack w a) s.phase = true := by simpa [acceptedIn] using hphase
  unfold execUnpack at h
  split_ifs at h with hph hneg hmax hstart <;> injection h with h <;> subst h
  · exact absurd hph (by tauto)
  iterate 3 · exact .failed _ htable (by decide) (by simp)
  · exact .completed _ htable (.unchanged (by simp) (by simp))

theorem execScan_ends {v : Int} {s t : State} (hphase : s.phase = .raw)
    (h : execScan v s = .next t) : Ends (.scan v) s t := by
  have htable : acceptedIn (.scan v) s.phase = true := by simp [acceptedIn, hphase]
  unfold execScan at h
  split_ifs at h with hph hneg hmax <;> injection h with h <;> subst h
  · exact absurd hphase hph
  iterate 2 · exact .failed _ htable (by decide) (by simp)
  · exact .completed _ htable (.scan hphase _)

theorem execBegin_ends {md : Mode} {k : Int} {s t : State} (hphase : s.phase = .raw)
    (h : execBegin md k s = .next t) : Ends (.begin md k) s t := by
  have htable : acceptedIn (.begin md k) s.phase = true := by simp [acceptedIn, hphase]
  unfold execBegin at h
  split_ifs at h with hph hlen hneg hmax <;> injection h with h <;> subst h
  · exact absurd hphase hph
  iterate 3 · exact .failed _ htable (by decide) (by simp)
  · exact .completed _ htable (.begin hphase (not_not.mp hlen) (by omega))

theorem execBegina_ends {md : Mode} {s t : State} (hphase : s.phase = .raw)
    (h : execBegina md s = .next t) : Ends (.begina md) s t := by
  have htable : acceptedIn (.begina md) s.phase = true := by simp [acceptedIn, hphase]
  unfold execBegina at h
  split_ifs at h with hph hlen hmax <;> injection h with h <;> subst h
  · exact absurd hphase hph
  iterate 2 · exact .failed _ htable (by decide) (by simp)
  · refine .completed _ htable (.begina hphase (not_not.mp hlen) ?_)
    cases md with
    | crossing => exact kderive_le s.smax.isLt
    | nonCrossing => exact not_lt.mp fun hlt => hmax ⟨rfl, hlt⟩

/-- The value of a non-negative operand fits `k` bits if the operand is below `2^k`. -/
theorem toNat_lt_two_pow {v : Int} {k : Nat} (hneg : ¬v < 0) (hfit : ¬v ≥ 2 ^ k) :
    v.toNat < 2 ^ k := by
  have hcast : ((2 ^ k : Nat) : Int) = 2 ^ k := by push_cast; rfl
  omega

theorem execPush_ends {v : Int} {s t : State} (hphase : s.phase = .build)
    (h : execPush v s = .next t) : Ends (.push v) s t := by
  have htable : acceptedIn (.push v) s.phase = true := by simp [acceptedIn, hphase]
  unfold execPush at h
  split_ifs at h with hph hneg hzero hfit hcount hcap <;> injection h with h <;> subst h
  · exact absurd hphase hph
  iterate 5 · exact .killed _ v rfl hphase (by decide)
  · exact .completed _ htable (.push
      ⟨hphase, hzero, toNat_lt_two_pow hneg hfit, by omega, not_lt.mp hcap⟩)

theorem execAttach_ends {md : Mode} {k n : Int} {s t : State} (hphase : s.phase = .raw)
    (h : execAttach md k n s = .next t) : Ends (.attach md k n) s t := by
  have htable : acceptedIn (.attach md k n) s.phase = true := by simp [acceptedIn, hphase]
  unfold execAttach at h
  split_ifs at h with hph hneg hmax hcount hzero <;> injection h with h <;> subst h
  · exact absurd hphase hph
  iterate 4 · exact .failed _ htable (by decide) (by simp)
  · exact .completed _ htable (.attach hphase (by omega) (by omega) (by omega))

theorem execGet_ends {x : Int} {s t : State} (hphase : s.phase = .sealed)
    (h : execGet x s = .next t) : Ends (.get x) s t := by
  have htable : acceptedIn (.get x) s.phase = true := by simp [acceptedIn, hphase]
  unfold execGet at h
  split_ifs at h with hph hrange <;> injection h with h <;> subst h
  · exact absurd hphase hph
  · exact .failed _ htable (by decide) (by simp)
  · exact .completed _ htable (.unchanged (by simp) (by simp))

theorem execSbit_ends {x : Int} {s t : State} (hphase : s.phase = .sealed)
    (h : execSbit x s = .next t) : Ends (.sbit x) s t := by
  have htable : acceptedIn (.sbit x) s.phase = true := by simp [acceptedIn, hphase]
  unfold execSbit at h
  split_ifs at h with hph hrange <;> injection h with h <;> subst h
  · exact absurd hphase hph
  · exact .failed _ htable (by decide) (by simp)
  · exact .completed _ htable (.unchanged (by simp) (by simp))

/-- Every command ends in one of the ways of `Ends`. -/
theorem exec_ends {i : Instr} {s t : State} (h : exec i s = .next t) : Ends i s t := by
  by_cases htable : acceptedIn i s.phase = true
  · cases i with
    | nop => injection h with h; subst h; exact .completed _ rfl (.unchanged (by simp) (by simp))
    | clear => injection h with h; subst h; exact .completed _ rfl .clear
    | rdcsr c => injection h with h; subst h; exact .completed _ rfl (.unchanged (by simp) (by simp))
    | pack w a v => exact execPack_ends (by simpa [acceptedIn] using htable) h
    | unpack w a => exact execUnpack_ends (by simpa [acceptedIn] using htable) h
    | scan v => exact execScan_ends (by simpa [acceptedIn] using htable) h
    | begin md k => exact execBegin_ends (by simpa [acceptedIn] using htable) h
    | begina md => exact execBegina_ends (by simpa [acceptedIn] using htable) h
    | push v => exact execPush_ends (by simpa [acceptedIn] using htable) h
    | sealBuild =>
      have hphase : s.phase = .build := by simpa [acceptedIn] using htable
      simp only [exec, execSeal, hphase, ne_eq, not_true_eq_false, if_false] at h
      injection h with h
      subst h
      exact .completed _ htable (.sealBuild hphase)
    | attach md k n => exact execAttach_ends (by simpa [acceptedIn] using htable) h
    | get x => exact execGet_ends (by simpa [acceptedIn] using htable) h
    | sbit x => exact execSbit_ends (by simpa [acceptedIn] using htable) h
  · rw [exec_of_refused (by simpa using htable)] at h
    injection h with h
    subst h
    exact .refused (by simpa using htable)

/-- A step, inverted: the block waited, was reset, answered an illegal packet, or ran a command; but for the wait, the
state it started from has lost the action taken from its port (R12, R78, R190). -/
theorem step_inv {s t : State} (h : step s = .next t) :
    t = s ∨ ∃ rest, t = State.hostReset { s with port := rest } ∨
      (∃ e, t = State.failWith { s with port := rest } (decodeErrorCode e)) ∨
      ∃ i, exec i { s with port := rest } = .next t := by
  rw [step_of_port] at h
  split at h
  · injection h with h
    exact .inl h.symm
  · next p rest hport =>
    cases hd : decode p with
    | ok i => exact .inr ⟨rest, .inr (.inr ⟨i, runPacket_of_ok hd _ ▸ h⟩)⟩
    | error e =>
      rw [runPacket_of_error hd] at h
      injection h with h
      exact .inr ⟨rest, .inr (.inl ⟨e, h.symm⟩)⟩
  · next rest hport =>
    injection h with h
    exact .inr ⟨rest, .inl h.symm⟩
  · next p rest hport =>
    injection h with h
    exact .inr ⟨rest, .inl h.symm⟩

/-- What does not depend on the port, holds after reset, and is kept by errors and by commands, is kept by every step. -/
theorem step_keeps {P : State → Prop} (hport : ∀ s rest, P s → P { s with port := rest })
    (hreset : ∀ s, P s → P s.hostReset) (hfail : ∀ s c, P s → P (s.failWith c))
    (hexec : ∀ i s t, P s → exec i s = .next t → P t) {s t : State} (hs : P s)
    (h : step s = .next t) : P t := by
  rcases step_inv h with rfl | ⟨rest, rfl | ⟨e, rfl⟩ | ⟨i, hi⟩⟩
  · exact hs
  · exact hreset _ (hport s rest hs)
  · exact hfail _ _ (hport s rest hs)
  · exact hexec i _ t (hport s rest hs) hi

end Sys2Proof.Machine
end

section
/-! The cursor of both layouts, element by element (41_crossing_packer.md R112, 42_noncrossing_packer.md R121 to R124,
43_structure_commands.md R135). -/

namespace Sys2Proof.Machine

/-- An element for which the word of the cursor has room is placed at the cursor. -/
theorem ncplace_of_room {q u k : Nat} (hk : 1 ≤ k) (hroom : u + k ≤ 32) :
    ncplace (32 * q + u) k = 32 * q + u := by
  unfold ncplace
  rw [if_neg (by omega)]

/-- An element for which the word of the cursor has no room, or that finds the word full, goes to the next word. -/
theorem ncplace_of_no_room {q u k : Nat} (hmax : k ≤ 32) (hu : u ≤ 32) (hroom : 32 < u + k) :
    ncplace (32 * q + u) k = 32 * (q + 1) := by
  unfold ncplace
  split_ifs <;> omega

/-- The cursor after an element: the elements of its word up to it are used. -/
theorem ncpos_succ (n k : Nat) :
    ncpos (n + 1) k = 32 * (n / (32 / k)) + k * (n % (32 / k) + 1) := by
  rw [Nat.mul_succ, ← Nat.add_assoc]
  rfl

/-- The cursor after `n` elements of a non-crossing structure is placed at the start bit of element `n`: inside a word
nothing is skipped, after its last element the padding is. -/
theorem ncplace_ncpos {k : Nat} (hk : 1 ≤ k) (hmax : k ≤ 32) (n : Nat) :
    ncplace (ncpos n k) k = ncstart n k := by
  cases n with
  | zero => simp [ncpos, ncplace, ncstart, hmax]
  | succ m =>
    have hpos : 0 < 32 / k := Nat.div_pos hmax hk
    have hm : m % (32 / k) + 32 / k * (m / (32 / k)) = m := Nat.mod_add_div m (32 / k)
    rw [ncpos_succ]
    rcases Nat.lt_or_eq_of_le (Nat.mod_lt m hpos) with hinside | hlast
    · obtain ⟨hdiv, hmod⟩ := (Nat.div_mod_unique (a := m + 1) (c := m % (32 / k) + 1)
        (d := m / (32 / k)) hpos).mpr ⟨by omega, hinside⟩
      have hroom : k * (m % (32 / k) + 1) + k ≤ 32 :=
        calc k * (m % (32 / k) + 1) + k = k * (m % (32 / k) + 1 + 1) := rfl
          _ ≤ k * (32 / k) := Nat.mul_le_mul_left k hinside
          _ ≤ 32 := Nat.mul_div_le 32 k
      rw [ncplace_of_room hk hroom, ncstart, hdiv, hmod]
    · have hlast : m % (32 / k) + 1 = 32 / k := hlast
      obtain ⟨hdiv, hmod⟩ := (Nat.div_mod_unique (a := m + 1) (c := 0)
        (d := m / (32 / k) + 1) hpos).mpr ⟨by rw [Nat.mul_succ]; omega, hpos⟩
      rw [hlast, ncplace_of_no_room hmax (Nat.mul_div_le 32 k) (Nat.lt_mul_div_succ 32 hk)]
      simp only [ncstart, hdiv, hmod, Nat.mul_zero, Nat.add_zero]

theorem epos_zero (md : Mode) (k : Nat) : epos md k 0 = 0 := by
  cases md <;> simp [epos, ncpos]

/-- The next element goes where the element of that index starts (R112, R135). -/
theorem eplace_epos {md : Mode} {k : Nat} (hk : 1 ≤ k) (hmax : k ≤ kMax md) (n : Nat) :
    eplace md k (epos md k n) = estart md k n := by
  cases md with
  | crossing => rfl
  | nonCrossing => exact ncplace_ncpos hk hmax n

/-- An element ends where the cursor stands after it. -/
theorem epos_succ (md : Mode) (k n : Nat) : epos md k (n + 1) = estart md k n + k := by
  cases md with
  | crossing => exact Nat.succ_mul n k
  | nonCrossing => rfl

theorem epos_le_epos_succ {md : Mode} {k : Nat} (hk : 1 ≤ k) (hmax : k ≤ kMax md) (n : Nat) :
    epos md k n ≤ epos md k (n + 1) :=
  calc epos md k n ≤ eplace md k (epos md k n) := le_eplace md k _
    _ = estart md k n := eplace_epos hk hmax n
    _ ≤ epos md k (n + 1) := by rw [epos_succ]; omega

/-- Every element ends at or before the cursor after all of them. -/
theorem estart_add_le_epos {md : Mode} {k i n : Nat} (hk : 1 ≤ k) (hmax : k ≤ kMax md)
    (hi : i < n) : estart md k i + k ≤ epos md k n :=
  calc estart md k i + k = epos md k (i + 1) := (epos_succ md k i).symm
    _ ≤ epos md k n := monotone_nat_of_le_succ (epos_le_epos_succ hk hmax) hi

end Sys2Proof.Machine
end

section
/-! What every command keeps of the registers: the phase table, `ERR`, `PHASE`, `LEN` and the words, the constants
(10_state.md R24 to R26, R30 to R32, R38). -/

namespace Sys2Proof.Machine

/-! ## The phase table (R30) -/

theorem ErrorCode.code_ne_phase {c : ErrorCode} (hc : c ≠ .phase) : c.code ≠ 0x60 :=
  fun h => hc (ErrorCode.code_injective h)

/-- A command the phase table accepts does not answer `E_PHASE`. -/
theorem Ends.status_ne_phase {i : Instr} {s t : State} (h : Ends i s t)
    (htable : acceptedIn i s.phase = true) {q : Packet} (hq : t.resp = some q) :
    responseStatus q ≠ 0x60 := by
  cases h with
  | refused hno => simp [hno] at htable
  | failed c _ hc _ =>
    simp only [State.failWith_resp, Option.some.injEq] at hq
    simpa [← hq] using ErrorCode.code_ne_phase hc
  | killed c v _ _ hc =>
    simp only [State.failBuild_resp, Option.some.injEq] at hq
    simpa [← hq] using ErrorCode.code_ne_phase hc
  | completed r _ _ =>
    simp only [State.respond_resp, Option.some.injEq] at hq
    simp [← hq, statusOk]

/-- `BEGIN` and `BEGINA` look at `LEN` right after the phase (R137, R138). -/
theorem exec_begin_of_notEmpty {s : State} (hphase : s.phase = .raw) (hlen : s.len ≠ 0) (md : Mode)
    (k : Int) : exec (.begin md k) s = .next (s.failWith .phaseNotEmpty) := by
  rw [exec, execBegin, if_neg (not_not.mpr hphase), if_pos hlen]

theorem exec_begina_of_notEmpty {s : State} (hphase : s.phase = .raw) (hlen : s.len ≠ 0)
    (md : Mode) : exec (.begina md) s = .next (s.failWith .phaseNotEmpty) := by
  rw [exec, execBegina, if_neg (not_not.mpr hphase), if_pos hlen]

/-- Settles O32: the refused commands by the first test of each, the accepted ones by the ways they end, and the check
of `LEN`, which comes second. -/
theorem phaseTable : Obligations.PhaseTable := by
  intro i s
  refine ⟨exec_of_refused, fun htable t q h hq => (exec_ends h).status_ne_phase htable hq, ?_⟩
  intro hphase hlen hname
  cases i with
  | begin md k => exact exec_begin_of_notEmpty hphase hlen md k
  | begina md => exact exec_begina_of_notEmpty hphase hlen md
  | _ => simp [Instr.mnemonic] at hname

/-! ## `ERR` (R31) -/

/-- Only `CLEAR` among the completed commands writes `ERR`. -/
theorem Completes.err {i : Instr} {s u : State} (h : Completes s i u) (hi : i ≠ .clear) :
    u.err = s.err := by
  cases h with
  | clear => exact absurd rfl hi
  | pack => exact State.pack_err s _ _ _
  | push => exact State.placeElement_err s _
  | _ => rfl

/-- `ERR` after a command other than `CLEAR` is the status of the response if it was 0, and as it was otherwise. -/
theorem Ends.err {i : Instr} {s t : State} (h : Ends i s t) (hi : i ≠ .clear) {q : Packet}
    (hq : t.resp = some q) : t.err = if s.err = 0 then responseStatus q else s.err := by
  cases h with
  | refused | failed =>
    simp only [State.failWith_resp, Option.some.injEq] at hq
    simp [← hq, stickyErr]
  | killed =>
    simp only [State.failBuild_resp, Option.some.injEq] at hq
    simp [← hq, stickyErr]
  | completed r _ heffect =>
    simp only [State.respond_resp, Option.some.injEq] at hq
    have herr := heffect.err hi
    split_ifs with hzero <;> simp [← hq, herr, hzero, statusOk]

/-- Settles O34: a packet that decodes by the ways its command ends, an illegal one as every error. -/
theorem errKeepsFirstError : Obligations.ErrKeepsFirstError := by
  refine ⟨fun _ => rfl, fun _ => rfl, fun p s t h => ⟨fun hd => ?_, fun hd q hq => ?_⟩⟩
  · rw [runPacket_of_ok hd] at h
    injection h with h
    rw [← h]
    rfl
  · cases hdecode : decode p with
    | ok i =>
      rw [runPacket_of_ok hdecode] at h
      exact (exec_ends h).err (fun hi => hd (hi ▸ hdecode)) hq
    | error e =>
      rw [runPacket_of_error hdecode] at h
      injection h with h
      subst h
      simp only [State.failWith_resp, Option.some.injEq] at hq
      simp [← hq, stickyErr]

/-! ## `PHASE` (R26) -/

/-- Settles O35: one case for each way to end and each effect. -/
theorem phaseTransitions : Obligations.PhaseTransitions := by
  intro i s t h
  cases exec_ends h with
  | refused | failed => exact .inl rfl
  | killed c v hi hphase =>
    exact .inr (.inr (.inr (.inr (.inr (.inr ⟨⟨v, hi⟩, hphase, rfl⟩)))))
  | completed r _ heffect =>
    cases heffect with
    | unchanged | scan => exact .inl rfl
    | @pack w a v => exact .inl (State.pack_phase s a.toNat v.toNat w.toNat)
    | @push v => exact .inl (State.placeElement_phase s v.toNat)
    | clear => exact .inr (.inl ⟨rfl, rfl⟩)
    | begin hphase => exact .inr (.inr (.inl ⟨⟨_, _, rfl⟩, hphase, rfl⟩))
    | begina hphase => exact .inr (.inr (.inr (.inl ⟨⟨_, rfl⟩, hphase, rfl⟩)))
    | sealBuild hphase => exact .inr (.inr (.inr (.inr (.inl ⟨rfl, hphase, rfl⟩))))
    | attach hphase =>
      exact .inr (.inr (.inr (.inr (.inr (.inl ⟨⟨_, _, _, rfl⟩, hphase, rfl⟩)))))

/-! ## `LEN` and the words (R24, R25) -/

/-- A field within the capacity needs a number of words that the `LEN` register holds. -/
theorem wordsNeeded_lt_of_le_cap {s : State} {a w : Nat} (h : wordsNeeded a w ≤ s.cap.toNat) :
    wordsNeeded a w < 2 ^ 32 :=
  h.trans_lt s.cap.isLt

/-- A command that completes writes words in RAW as a `PACK`, in BUILD as a `PUSH`, or is `CLEAR`; a write makes the
array no shorter. -/
theorem Completes.array {i : Instr} {s u : State} (h : Completes s i u) :
    u.len = s.len ∧ u.mem = s.mem ∨ i = .clear ∨
      mayWriteArray i = true ∧ (s.phase = .raw ∨ s.phase = .build) ∧ s.len.toNat ≤ u.len.toNat := by
  cases h with
  | clear => exact .inr (.inl rfl)
  | @pack w a v hphase _ hcap =>
    have hlen := State.len_pack s a.toNat v.toNat w.toNat (wordsNeeded_lt_of_le_cap hcap)
    exact .inr (.inr ⟨rfl, .inl hphase, hlen ▸ le_max_left _ _⟩)
  | @push v hpush =>
    obtain ⟨hphase, -, -, -, hcap⟩ := hpush
    have hlen := State.len_pack s s.pushStart v.toNat s.k.toNat (wordsNeeded_lt_of_le_cap hcap)
    exact .inr (.inr ⟨rfl, .inr hphase, hlen ▸ le_max_left _ _⟩)
  | _ => exact .inl ⟨rfl, rfl⟩

/-- As `Completes.array`, for every command: one that ends with an error leaves the array as it is. -/
theorem Ends.array {i : Instr} {s t : State} (h : Ends i s t) :
    t.len = s.len ∧ t.mem = s.mem ∨ i = .clear ∨
      mayWriteArray i = true ∧ (s.phase = .raw ∨ s.phase = .build) ∧ s.len.toNat ≤ t.len.toNat := by
  cases h with
  | completed _ _ heffect => exact heffect.array
  | _ => exact .inl ⟨rfl, rfl⟩

/-- Settles O36: the three clauses read off `Ends.array`. -/
theorem arrayWrittenByPackAndPushOnly : Obligations.ArrayWrittenByPackAndPushOnly := by
  intro i s t h
  rcases (exec_ends h).array with ⟨hlen, hmem⟩ | rfl | ⟨hwrites, hphase, hlen⟩
  · exact ⟨fun _ => ⟨hlen, hmem⟩, fun _ _ => ⟨hlen, hmem⟩, fun _ => hlen ▸ le_rfl⟩
  · exact ⟨fun hno => absurd hno (by decide), fun _ hi => absurd rfl hi, fun hi => absurd rfl hi⟩
  · refine ⟨fun hno => ?_, fun hro _ => ?_, fun _ => hlen⟩
    · simp [hno] at hwrites
    · rcases hphase with hphase | hphase <;> simp [hphase] at hro

/-! ## The constants (R32) -/

theorem Completes.cap {i : Instr} {s u : State} (h : Completes s i u) : u.cap = s.cap := by
  cases h with
  | pack => exact State.pack_cap s _ _ _
  | push => exact State.placeElement_cap s _
  | _ => rfl

theorem Ends.cap {i : Instr} {s t : State} (h : Ends i s t) : t.cap = s.cap := by
  cases h with
  | completed _ _ heffect => exact heffect.cap
  | _ => rfl

theorem step_cap {s t : State} (h : step s = .next t) : t.cap = s.cap :=
  step_keeps (P := fun u => u.cap = s.cap) (fun _ _ hu => hu) (fun _ hu => hu) (fun _ _ hu => hu)
    (fun _ _ _ hu hexec => (exec_ends hexec).cap.trans hu) rfl h

/-- Settles O38: `CAP` is kept by every step, and `WMAX` is no state. -/
theorem constantsNeverChange : Obligations.ConstantsNeverChange := by
  intro s t h
  have hcap := step_cap h
  exact ⟨hcap, congrArg (BitVec.setWidth 128) hcap, rfl⟩

/-! ## Reset (R38) -/

/-- An empty array has no bit set (R90). -/
theorem State.bit_of_len_zero {s : State} (hlen : s.len = 0) (b : Nat) : s.bit b = false :=
  State.bit_beyond (by simp [hlen])

/-- Settles O11: the registers by definition, the bits because the array is empty. -/
theorem resetValues : Obligations.ResetValues :=
  fun _ => ⟨rfl, rfl, rfl, rfl, rfl, rfl, rfl, rfl, rfl, rfl, rfl, State.bit_of_len_zero rfl⟩

end Sys2Proof.Machine
end

section
/-! A successful `PUSH`, under the invariants: where the element goes, the cursor after it, the array after it
(10_state.md R28, R36; 43_structure_commands.md R139). -/

namespace Sys2Proof.Machine

/-- No layout has an element wider than `WMAX` (R113, R120). -/
theorem kMax_le (md : Mode) : kMax md ≤ 64 := by cases md <;> decide

/-- A width legal for a layout fits the `K` register. -/
theorem toNat_width_of_le_kMax {md : Mode} {k : Nat} (hk : k ≤ kMax md) :
    (BitVec.ofNat 16 k).toNat = k := by
  have hmax := kMax_le md
  rw [BitVec.toNat_ofNat, Nat.mod_eq_of_lt (by omega)]

/-- The width of a state that meets the invariants is at most 64 in either layout. -/
theorem State.Inv.k_le {s : State} (hinv : s.Inv) : s.k.toNat ≤ 64 :=
  hinv.k_legal.trans (kMax_le s.mode)

theorem State.k_pos {s : State} (hk : s.k ≠ 0) : 1 ≤ s.k.toNat :=
  Nat.one_le_iff_ne_zero.mpr fun h => hk (BitVec.eq_of_toNat_eq h)

section
variable {s : State} {v : Nat}

/-- The array the new element needs is within the capacity. -/
theorem State.pushable.wordsNeeded_le (hpush : s.pushable v) :
    wordsNeeded s.pushStart s.k.toNat ≤ s.cap.toNat := by
  obtain ⟨-, -, -, -, hcap⟩ := hpush
  exact hcap

/-- `PUSH` of a value that passes every check places the element and answers OK. -/
theorem exec_push_of_pushable (hpush : s.pushable v) :
    exec (.push v) s = .next ((s.placeElement v).respond 0) := by
  have hcap := hpush.wordsNeeded_le
  obtain ⟨hphase, hk, hfit, hcount, -⟩ := hpush
  have hfit : ¬((v : Int) ≥ 2 ^ s.k.toNat) := not_le.mpr (by exact_mod_cast hfit)
  rw [exec, execPush, if_neg (not_not.mpr hphase), if_neg (by omega), if_neg hk, if_neg hfit,
    if_neg (by omega), if_neg (not_lt.mpr hcap), Int.toNat_natCast]

theorem State.pushable.toNat_n (hpush : s.pushable v) :
    (s.placeElement v).n.toNat = s.n.toNat + 1 := by
  obtain ⟨-, -, -, hcount, -⟩ := hpush
  rw [State.placeElement_n, BitVec.toNat_add, show (1 : BitVec 32).toNat = 1 from rfl,
    Nat.mod_eq_of_lt (by omega)]

/-- What placing an element does to the stream: the bits of its field are those of the value (R94, R139). -/
theorem State.bit_placeElement (hmem : s.mem.wf) (hpush : s.pushable v) (b : Nat) :
    (s.placeElement v).bit b =
      if s.pushStart ≤ b ∧ b < s.pushStart + s.k.toNat then v.testBit (b - s.pushStart)
      else s.bit b :=
  (State.bit_congr rfl rfl b).trans
    (State.bit_pack hmem (wordsNeeded_lt_of_le_cap hpush.wordsNeeded_le) b)

/-- The cursor stands at or before the place of the next element. -/
theorem State.pos_le_pushStart (s : State) : s.pos.toNat ≤ s.pushStart := le_eplace _ _ _

/-- The next element goes to the start bit of the index it gets. -/
theorem State.Inv.pushStart_eq (hinv : s.Inv) (hpush : s.pushable v) :
    s.pushStart = s.elementStart s.n.toNat := by
  obtain ⟨-, hk, -, -, -⟩ := hpush
  rw [State.pushStart, hinv.pos_eq, eplace_epos (State.k_pos hk) hinv.k_legal, State.elementStart]

/-- The cursor after a `PUSH` is the cursor after one element more. -/
theorem State.Inv.pushEnd_eq (hinv : s.Inv) (hpush : s.pushable v) :
    s.pushStart + s.k.toNat = epos s.mode s.k.toNat (s.n.toNat + 1) := by
  rw [hinv.pushStart_eq hpush, epos_succ, State.elementStart]

/-- The `POS` register holds the cursor after a `PUSH`. -/
theorem State.Inv.toNat_pos_placeElement (hinv : s.Inv) (hpush : s.pushable v) :
    (s.placeElement v).pos.toNat = s.pushStart + s.k.toNat := by
  obtain ⟨-, -, -, hcount, -⟩ := id hpush
  have hlt : s.pushStart + s.k.toNat < 2 ^ 64 :=
    hinv.pushEnd_eq hpush ▸ epos_lt hinv.k_le (by omega)
  rw [State.placeElement_pos, BitVec.toNat_ofNat, Nat.mod_eq_of_lt hlt]

/-- After a `PUSH` the array has just the words the cursor needs, as before it. -/
theorem State.Inv.toNat_len_placeElement (hinv : s.Inv) (hpush : s.pushable v) :
    (s.placeElement v).len.toNat = wordsNeeded s.pushStart s.k.toNat := by
  have hlen : s.len.toNat ≤ wordsNeeded s.pushStart s.k.toNat :=
    calc s.len.toNat = ceilDiv s.pos.toNat 32 := hinv.len_eq (.inl hpush.1)
      _ ≤ wordsNeeded s.pushStart s.k.toNat :=
        ceilDiv_mono (s.pos_le_pushStart.trans (Nat.le_add_right _ _))
  rw [State.placeElement_len,
    State.len_pack _ _ _ _ (wordsNeeded_lt_of_le_cap hpush.wordsNeeded_le), max_eq_right hlen]

/-- The elements there before a `PUSH` end at or before the place of the new one. -/
theorem State.Inv.elementEnd_le_pushStart (hinv : s.Inv) (hpush : s.pushable v) {i : Nat}
    (hi : i < s.n.toNat) : s.elementStart i + s.k.toNat ≤ s.pushStart := by
  obtain ⟨-, hk, -, -, -⟩ := hpush
  calc s.elementStart i + s.k.toNat
      ≤ epos s.mode s.k.toNat s.n.toNat := estart_add_le_epos (State.k_pos hk) hinv.k_legal hi
    _ = s.pos.toNat := hinv.pos_eq.symm
    _ ≤ s.pushStart := s.pos_le_pushStart

theorem State.elementStart_placeElement (s : State) (v i : Nat) :
    (s.placeElement v).elementStart i = s.elementStart i := by
  simp only [State.elementStart, State.placeElement_mode, State.placeElement_k]

/-- The new element has the value pushed. -/
theorem State.Inv.element_placeElement_self (hinv : s.Inv) (hpush : s.pushable v) :
    (s.placeElement v).element s.n.toNat = v := by
  obtain ⟨-, -, hfit, -, -⟩ := id hpush
  rw [State.element, State.elementStart_placeElement, State.placeElement_k,
    ← hinv.pushStart_eq hpush]
  refine State.unpack_eq_value hfit fun u hu => ?_
  rw [State.bit_placeElement hinv.mem_wf hpush, if_pos (by omega), Nat.add_sub_cancel_left]

/-- Every earlier element is as before. -/
theorem State.Inv.element_placeElement_of_lt (hinv : s.Inv) (hpush : s.pushable v) {i : Nat}
    (hi : i < s.n.toNat) : (s.placeElement v).element i = s.element i := by
  have hbefore := hinv.elementEnd_le_pushStart hpush hi
  rw [State.element, State.elementStart_placeElement, State.placeElement_k]
  refine State.unpack_eq_of_bits fun u hu => ?_
  rw [State.bit_placeElement hinv.mem_wf hpush, if_neg (by omega)]

end

/-- Settles O56: the lemmas above, on the state a `PUSH` leaves before it responds. -/
theorem pushKeepsEarlierElements : Obligations.PushKeepsEarlierElements := by
  intro s v hinv hpush
  refine ⟨_, exec_push_of_pushable hpush, hpush.toNat_n, ?_, ?_, fun i hi => ?_⟩
  · rw [State.elementStart_respond, State.elementStart_placeElement]
    exact hinv.pushStart_eq hpush
  · rw [State.element_respond]
    exact hinv.element_placeElement_self hpush
  · rw [State.element_respond]
    exact hinv.element_placeElement_of_lt hpush hi

end Sys2Proof.Machine
end

section
/-! The invariants: they hold after reset, and every way a step can end keeps them (10_state.md R28, R29, R31, R36, R38). -/

namespace Sys2Proof.Machine

/-! ## `ERR` after an error -/

theorem stickyErr_ne_zero (err : BitVec 8) (c : ErrorCode) : stickyErr err c ≠ 0 := by
  unfold stickyErr
  split_ifs with h
  · exact c.code_ne_zero
  · exact h

theorem stickyErr_raised {err : BitVec 8} (h : err = 0 ∨ ∃ d : ErrorCode, err = d.code)
    (c : ErrorCode) : stickyErr err c = 0 ∨ ∃ d : ErrorCode, stickyErr err c = d.code := by
  unfold stickyErr
  split_ifs with hzero
  · exact .inr ⟨c, rfl⟩
  · exact h

/-! ## What takes a state that meets the invariants to one that meets them -/

theorem resetWith_inv {cap : BitVec 32} (hcap : cap ≠ 0) : (State.resetWith cap).Inv where
  cap_pos := hcap
  len_le_cap := Nat.zero_le _
  mem_wf := Memory.wf_nil
  mem_below := by simp
  k_legal := Nat.zero_le _
  zero_k _ := rfl
  raw_fields _ := ⟨rfl, rfl, rfl, rfl⟩
  pos_eq := rfl
  len_eq h := by simp at h
  smax_zero _ := rfl
  err_code := .inl rfl
  failed_err h := by simp at h

namespace State.Inv

variable {s : State}

theorem withPort (hinv : s.Inv) (rest : List HostAction) :
    ({ s with port := rest } : State).Inv := { hinv with }

theorem respond (hinv : s.Inv) (r : BitVec 128) : (s.respond r).Inv := { hinv with }

theorem hostReset (hinv : s.Inv) : s.hostReset.Inv := { resetWith_inv hinv.cap_pos with }

theorem clearAll (hinv : s.Inv) : s.clearAll.Inv := { resetWith_inv hinv.cap_pos with }

theorem failWith (hinv : s.Inv) (c : ErrorCode) : (s.failWith c).Inv :=
  { hinv with
    err_code := stickyErr_raised hinv.err_code c
    failed_err := fun _ => stickyErr_ne_zero _ _ }

theorem failBuild (hinv : s.Inv) (hphase : s.phase = .build) (c : ErrorCode) :
    (s.failBuild c).Inv :=
  { hinv.failWith c with
    raw_fields := nofun
    len_eq := fun _ => hinv.len_eq (.inl hphase)
    failed_err := fun _ => stickyErr_ne_zero _ _ }

theorem pack (hinv : s.Inv) (hphase : s.phase = .raw) {a w : Nat} (hw : 0 < w)
    (hcap : wordsNeeded a w ≤ s.cap.toNat) (v : Nat) : (s.pack a v w).Inv where
  cap_pos := by simpa using hinv.cap_pos
  len_le_cap := by
    rw [State.len_pack s a v w (wordsNeeded_lt_of_le_cap hcap), State.pack_cap]
    exact max_le hinv.len_le_cap hcap
  mem_wf := State.wf_pack hinv.mem_wf a v w
  mem_below := State.mem_pack_below hw (wordsNeeded_lt_of_le_cap hcap) hinv.mem_below
  k_legal := by simpa using hinv.k_legal
  zero_k := by simpa using hinv.zero_k
  raw_fields := by simpa using hinv.raw_fields
  pos_eq := by simpa using hinv.pos_eq
  len_eq := by simp [hphase]
  smax_zero := by simpa using hinv.smax_zero
  err_code := by simpa using hinv.err_code
  failed_err := by simp [hphase]

theorem scan (hinv : s.Inv) (m : BitVec 64) :
    ({ s with smax := m, sany := true } : State).Inv :=
  { hinv with smax_zero := nofun }

theorem startBuild (hinv : s.Inv) (hlen : s.len = 0) {md : Mode}
    {k : Nat} (hk : k ≤ kMax md) : (s.startBuild md k).Inv :=
  { hinv with
    k_legal := by simpa [toNat_width_of_le_kMax hk] using hk
    zero_k := fun _ => rfl
    raw_fields := nofun
    pos_eq := (epos_zero md _).symm
    len_eq := fun _ => by simp [hlen, ceilDiv]
    failed_err := nofun }

theorem placeElement (hinv : s.Inv) {v : Nat} (hpush : s.pushable v) : (s.placeElement v).Inv where
  cap_pos := by simpa using hinv.cap_pos
  len_le_cap := by
    rw [hinv.toNat_len_placeElement hpush, State.placeElement_cap]
    exact hpush.wordsNeeded_le
  mem_wf := State.wf_pack hinv.mem_wf _ _ _
  mem_below := by
    obtain ⟨-, hk, -, -, -⟩ := id hpush
    exact State.mem_pack_below (State.k_pos hk) (wordsNeeded_lt_of_le_cap hpush.wordsNeeded_le)
      hinv.mem_below
  k_legal := by simpa using hinv.k_legal
  zero_k := by
    obtain ⟨-, hk, -, -, -⟩ := hpush
    rw [State.placeElement_k]
    exact fun h => absurd h hk
  raw_fields := by
    obtain ⟨hphase, -, -, -, -⟩ := hpush
    simp [hphase]
  pos_eq := by
    rw [hinv.toNat_pos_placeElement hpush, hpush.toNat_n, State.placeElement_mode,
      State.placeElement_k]
    exact hinv.pushEnd_eq hpush
  len_eq _ := by
    rw [hinv.toNat_pos_placeElement hpush, hinv.toNat_len_placeElement hpush, wordsNeeded]
  smax_zero := by simpa using hinv.smax_zero
  err_code := by simpa using hinv.err_code
  failed_err := by simpa using hinv.failed_err

theorem sealBuild (hinv : s.Inv) : ({ s with phase := .sealed } : State).Inv :=
  { hinv with
    raw_fields := nofun
    len_eq := nofun
    failed_err := nofun }

theorem attach (hinv : s.Inv) {md : Mode} {k n : Nat} (hk : k ≤ kMax md) (hn : n < 2 ^ 32)
    (hzero : k = 0 → n = 0) :
    ({ s with
      mode := md, k := BitVec.ofNat 16 k, n := BitVec.ofNat 32 n,
      pos := BitVec.ofNat 64 (epos md k n), phase := .sealed } : State).Inv := by
  have hkr := toNat_width_of_le_kMax hk
  have hnr : (BitVec.ofNat 32 n).toNat = n := by rw [BitVec.toNat_ofNat, Nat.mod_eq_of_lt hn]
  have hmax : k ≤ 64 := hk.trans (kMax_le md)
  exact { hinv with
    k_legal := by simpa [hkr] using hk
    zero_k := fun h => by
      have hk0 : k = 0 := hkr.symm.trans (congrArg BitVec.toNat h)
      simp [hzero hk0]
    raw_fields := nofun
    pos_eq := by
      simp only [hkr, hnr]
      rw [BitVec.toNat_ofNat, Nat.mod_eq_of_lt (epos_lt hmax hn)]
    len_eq := nofun
    failed_err := nofun }

end State.Inv

/-! ## Commands and steps -/

theorem Completes.inv {i : Instr} {s u : State} (h : Completes s i u) (hinv : s.Inv) : u.Inv := by
  cases h with
  | unchanged => exact hinv
  | clear => exact hinv.clearAll
  | pack hphase hw hcap => exact hinv.pack hphase (by omega) hcap _
  | scan _ m => exact hinv.scan m
  | begin _ hlen hk => exact hinv.startBuild hlen hk
  | begina _ hlen hk => exact hinv.startBuild hlen hk
  | push hpush => exact hinv.placeElement hpush
  | sealBuild => exact hinv.sealBuild
  | attach _ hk hn hzero => exact hinv.attach hk hn hzero

theorem Ends.inv {i : Instr} {s t : State} (h : Ends i s t) (hinv : s.Inv) : t.Inv := by
  cases h with
  | refused => exact hinv.failWith _
  | failed c => exact hinv.failWith c
  | killed c _ _ hphase => exact hinv.failBuild hphase c
  | completed r _ heffect => exact (heffect.inv hinv).respond r

/-- Settles O53: each thing a step can do keeps the invariants. -/
theorem stepKeepsInvariants : Obligations.StepKeepsInvariants :=
  fun _ _ => step_keeps (fun _ rest hinv => hinv.withPort rest) (fun _ hinv => hinv.hostReset)
    (fun _ c hinv => hinv.failWith c) (fun _ _ _ hinv h => (exec_ends h).inv hinv)

/-- A state with an empty array has no bit set, hence none outside its elements. -/
theorem State.paddingZero_of_len_zero {s : State} (hlen : s.len = 0) : s.paddingZero :=
  fun b hb => by simp [State.bit_of_len_zero hlen] at hb

/-- Settles O54: the invariants field by field, the bits because the array is empty. -/
theorem resetMeetsInvariants : Obligations.ResetMeetsInvariants :=
  fun _ hcap => ⟨resetWith_inv hcap, State.paddingZero_of_len_zero rfl⟩

end Sys2Proof.Machine
end

section
/-! The bits outside the elements: 0 during a build, in a dead one, and in the structure `SEAL` leaves
(10_state.md R36; 41_crossing_packer.md R114; 42_noncrossing_packer.md R127). -/

namespace Sys2Proof.Machine

/-- In BUILD and FAILED every bit outside the elements is 0. -/
def State.buildPadding (s : State) : Prop :=
  s.phase = .build ∨ s.phase = .failed → s.paddingZero

/-- Outside BUILD and FAILED it says nothing. -/
theorem State.buildPadding_of_phase {s : State} (hbuild : s.phase ≠ .build)
    (hfailed : s.phase ≠ .failed) : s.buildPadding :=
  fun h => absurd h (by tauto)

/-- The new element covers its own bits, and the elements before it cover what they covered. -/
theorem State.Inv.paddingZero_placeElement {s : State} {v : Nat} (hinv : s.Inv)
    (hpush : s.pushable v) (hpad : s.paddingZero) : (s.placeElement v).paddingZero := by
  intro b hb
  simp only [State.covered, State.elementStart_placeElement, State.placeElement_k, hpush.toNat_n]
  rw [State.bit_placeElement hinv.mem_wf hpush] at hb
  split_ifs at hb with hnew
  · rw [hinv.pushStart_eq hpush] at hnew
    exact ⟨s.n.toNat, by omega, hnew⟩
  · obtain ⟨i, hi, hin⟩ := hpad b hb
    exact ⟨i, by omega, hin⟩

theorem Completes.buildPadding {i : Instr} {s u : State} (h : Completes s i u) (hinv : s.Inv)
    (hpad : s.buildPadding) : u.buildPadding := by
  cases h with
  | unchanged => exact hpad
  | clear => exact State.buildPadding_of_phase nofun nofun
  | pack hphase =>
    exact State.buildPadding_of_phase (by simp [hphase]) (by simp [hphase])
  | scan => exact hpad
  | begin _ hlen | begina _ hlen => exact fun _ => State.paddingZero_of_len_zero hlen
  | push hpush =>
    obtain ⟨hphase, -, -, -, -⟩ := id hpush
    exact fun _ => hinv.paddingZero_placeElement hpush (hpad (.inl hphase))
  | sealBuild | attach => exact State.buildPadding_of_phase nofun nofun

/-- Errors change no bit and no element; the error that ends a build takes BUILD to FAILED. -/
theorem Ends.buildPadding {i : Instr} {s t : State} (h : Ends i s t) (hinv : s.Inv)
    (hpad : s.buildPadding) : t.buildPadding := by
  cases h with
  | refused | failed => exact hpad
  | killed _ _ _ hphase => exact fun _ => hpad (.inl hphase)
  | completed _ _ heffect => exact heffect.buildPadding hinv hpad

/-- The invariants together with the padding of a build are kept by every step. -/
theorem step_keeps_buildPadding {s t : State} (hinv : s.Inv) (hpad : s.buildPadding)
    (h : step s = .next t) : t.buildPadding := by
  have hboth : t.Inv ∧ t.buildPadding :=
    step_keeps (P := fun u => u.Inv ∧ u.buildPadding)
      (fun _ rest ⟨hinv, hpad⟩ => ⟨hinv.withPort rest, hpad⟩)
      (fun _ ⟨hinv, _⟩ => ⟨hinv.hostReset, State.buildPadding_of_phase nofun nofun⟩)
      (fun _ c ⟨hinv, hpad⟩ => ⟨hinv.failWith c, hpad⟩)
      (fun _ _ _ ⟨hinv, hpad⟩ hexec =>
        ⟨(exec_ends hexec).inv hinv, (exec_ends hexec).buildPadding hinv hpad⟩)
      ⟨hinv, hpad⟩ h
  exact hboth.2

/-- The only way from BUILD to SEALED is `SEAL` (R26), which changes the phase and answers. -/
theorem exec_build_to_sealed {i : Instr} {s t : State} (h : exec i s = .next t)
    (hbuild : s.phase = .build) (hsealed : t.phase = .sealed) :
    t = State.respond { s with phase := .sealed } 0 := by
  have hi : i = .sealBuild := by
    have htrans := phaseTransitions i s t h
    simpa [hbuild, hsealed] using htrans
  rw [hi, exec, execSeal, if_neg (not_not.mpr hbuild)] at h
  injection h with h
  exact h.symm

/-- As `exec_build_to_sealed`, for a step. -/
theorem step_build_to_sealed {s t : State} (h : step s = .next t) (hbuild : s.phase = .build)
    (hsealed : t.phase = .sealed) :
    ∃ rest, t = State.respond { s with phase := .sealed, port := rest } 0 := by
  rcases step_inv h with rfl | ⟨rest, rfl | ⟨e, rfl⟩ | ⟨i, hi⟩⟩
  · simp [hbuild] at hsealed
  · simp at hsealed
  · simp [hbuild] at hsealed
  · exact ⟨rest, exec_build_to_sealed hi hbuild hsealed⟩

/-- Settles O55: the padding as an invariant beside `State.Inv`; what `SEAL` leaves has the words and registers of the
build it ends. -/
theorem buildKeepsPaddingZero : Obligations.BuildKeepsPaddingZero := by
  intro s t hinv hpad h
  refine ⟨step_keeps_buildPadding hinv hpad h, fun hbuild hsealed => ?_⟩
  obtain ⟨rest, rfl⟩ := step_build_to_sealed h hbuild hsealed
  exact ⟨hpad (.inl hbuild), hinv.len_eq (.inl hbuild)⟩

end Sys2Proof.Machine
end

section
/-! A stream bit in its word and in its stored byte (20_memory.md R50, R52). -/

namespace Sys2Proof.Machine

/-- Below `32 * LEN` both read the storage, where word `b / 32` holds byte `b / 8`; beyond it both are 0 (R52, R90). -/
theorem State.bit_eq_byte (s : State) (b : Nat) :
    s.bit b = (s.byte (b / 8)).getLsbD (b % 8) := by
  have hword : b / 8 / 4 = b / 32 := by omega
  by_cases hin : b / 32 < s.len.toNat
  · have hbyte : 4 * (b / 32) + b % 32 / 8 = b / 8 := by omega
    have hbit : b % 32 % 8 = b % 8 := by omega
    rw [State.bit, if_pos hin, State.byte, hword, if_pos hin,
      Memory.getLsbD_word _ _ _ (Nat.mod_lt b (by decide)), hbyte, hbit]
  · rw [State.bit, if_neg hin, State.byte, hword, if_neg hin]
    exact BitVec.getLsbD_zero.symm

/-- Settles O47: the word by `bit_eq_word`, the stored byte by `bit_eq_byte`. -/
theorem bitsOfWordsAndBytes : Obligations.BitsOfWordsAndBytes :=
  fun s b => ⟨s.bit_eq_word b, s.bit_eq_byte b⟩

end Sys2Proof.Machine
end

section
/-! The decoder said by fields, and with it the two directions of the round trip (30_encoding.md R70, R72, R73, R81). -/

namespace Sys2Proof

theorem modeOfCode_eq_some {b : BitVec 8} {md : Mode} : modeOfCode b = some md ↔ b = md.code :=
  ⟨fun h => (code_of_modeOfCode h).symm, fun h => h ▸ modeOfCode_code md⟩

theorem csrOfIndex_eq_some {b : BitVec 8} {c : Csr} : csrOfIndex b = some c ↔ b = c.index :=
  ⟨fun h => (index_of_csrOfIndex h).symm, fun h => h ▸ csrOfIndex_index c⟩

/-- The fields `M`, `W`, `A`, `V` are as the command has them: a selector names its mode or register, a number is the
value of its field, an unused field is zero (R70, R72, R77). `decode_eq_ok` ties this to the decoder. -/
def Packet.Carries (p : Packet) : Instr → Prop
  | .nop | .clear | .sealBuild => p.m = 0 ∧ p.w = 0 ∧ p.a = 0 ∧ p.v = 0
  | .rdcsr c => p.m = c.index ∧ p.w = 0 ∧ p.a = 0 ∧ p.v = 0
  | .pack w s v => p.m = 0 ∧ p.w.toInt = w ∧ p.a.toInt = s ∧ p.v.toInt = v
  | .unpack w s => p.m = 0 ∧ p.w.toInt = w ∧ p.a.toInt = s ∧ p.v = 0
  | .scan v | .push v => p.m = 0 ∧ p.w = 0 ∧ p.a = 0 ∧ p.v.toInt = v
  | .begin md k => p.m = md.code ∧ p.w.toInt = k ∧ p.a = 0 ∧ p.v = 0
  | .begina md => p.m = md.code ∧ p.w = 0 ∧ p.a = 0 ∧ p.v = 0
  | .attach md k n => p.m = md.code ∧ p.w.toInt = k ∧ p.a.toInt = n ∧ p.v = 0
  | .get i | .sbit i => p.m = 0 ∧ p.w = 0 ∧ p.a.toInt = i ∧ p.v = 0

/-- What the decoder accepts (R73, R78). Forward along its branches, four of which read a selector; back along the
commands. -/
theorem decode_eq_ok {p : Packet} {i : Instr} :
    decode p = .ok i ↔ p.op = i.opcode ∧ p.z = 0 ∧ p.Carries i := by
  constructor
  · intro h
    unfold decode at h
    split at h
    case h_14 => contradiction
    case h_3 | h_7 | h_8 | h_11 =>
      obtain ⟨x, hsel, hz, hunused, rfl⟩ := Packet.acceptSel_eq_ok.mp h
      refine ⟨BitVec.eq_of_toNat_eq ‹_›, hz, ?_⟩
      simpa [Packet.Carries, modeOfCode_eq_some, csrOfIndex_eq_some, and_assoc]
        using And.intro hsel hunused
    all_goals
      obtain ⟨hz, hunused, rfl⟩ := Packet.accept_eq_ok.mp h
      exact ⟨BitVec.eq_of_toNat_eq ‹_›, hz, by simpa [Packet.Carries, and_assoc] using hunused⟩
  · rintro ⟨hop, hz, hfields⟩
    cases i <;> simp only [Packet.Carries] at hfields <;>
      simp [decode, hop, Instr.opcode, Packet.accept_eq_ok, Packet.acceptSel_eq_ok, hz, hfields,
        modeOfCode_code, csrOfIndex_index]

theorem op_encode (i : Instr) : (encode i).op = i.opcode := by cases i <;> simp [encode]

theorem z_encode (i : Instr) : (encode i).z = 0 := by cases i <;> simp [encode]

/-- An operand in the range of its field comes back from the field (R72, R81). -/
theorem carries_encode {i : Instr} (hwf : i.wf = true) : (encode i).Carries i := by
  cases i <;> simp only [Instr.wf, Bool.and_eq_true] at hwf <;>
    simp [encode, Packet.Carries, -BitVec.toInt_ofInt, toInt_ofInt_of_fitsSigned, hwf]

/-- The values of fields are in range (R72). -/
theorem Packet.Carries.wf {p : Packet} {i : Instr} (h : p.Carries i) : i.wf = true := by
  cases i <;> simp only [Packet.Carries] at h <;> simp [Instr.wf, ← h, fitsSigned_toInt]

/-- The encoder writes back the fields the command was read from (R73). -/
theorem Packet.Carries.encode_eq {p : Packet} {i : Instr} (h : p.Carries i)
    (hop : p.op = i.opcode) (hz : p.z = 0) : encode i = p := by
  calc encode i = Packet.make p.op p.m p.w p.a p.v := by
        cases i <;> simp only [Packet.Carries] at h <;> simp [encode, hop, ← h, BitVec.ofInt_toInt]
    _ = p := Packet.make_fields hz

/-- Settles O1: the fields of the encoding are those of the command. -/
theorem decodeAfterEncode : Obligations.DecodeAfterEncode :=
  fun i hwf => decode_eq_ok.mpr ⟨op_encode i, z_encode i, carries_encode hwf⟩

/-- Settles O2: the fields the decoder read are in range, and with `Z` zero they are the whole packet. -/
theorem encodeAfterDecode : Obligations.EncodeAfterDecode := by
  intro p i h
  obtain ⟨hop, hz, hfields⟩ := decode_eq_ok.mp h
  exact ⟨hfields.wf, hfields.encode_eq hop hz⟩

end Sys2Proof
end

section
/-! The mask table against the decoder, and the causes of an illegal packet (30_encoding.md R76, R78, R85). -/

namespace Sys2Proof

/-! ## The bounds on `M` are those of the selectors (R27, R33) -/

theorem Mode.code_le_one (md : Mode) : md.code.toNat ≤ 1 := by cases md <;> decide

theorem Csr.index_lt (c : Csr) : c.index.toNat < 11 := by cases c <;> decide

theorem exists_code_of_lt {b : BitVec 8} (h : b.toNat < 2) : ∃ md : Mode, b = md.code := by
  have hsome : (modeOfCode b).isSome = true := by
    unfold modeOfCode
    split <;> simp_all
    omega
  obtain ⟨md, hmd⟩ := Option.isSome_iff_exists.mp hsome
  exact ⟨md, modeOfCode_eq_some.mp hmd⟩

theorem exists_index_of_lt {b : BitVec 8} (h : b.toNat < 11) : ∃ c : Csr, b = c.index := by
  have hsome : (csrOfIndex b).isSome = true := by
    unfold csrOfIndex
    split <;> simp_all
    omega
  obtain ⟨c, hc⟩ := Option.isSome_iff_exists.mp hsome
  exact ⟨c, csrOfIndex_eq_some.mp hc⟩

/-! ## Rows and commands (R85) -/

/-- A mask test is six tests, one on each field. -/
theorem Packet.and_eq_iff (p mask pattern : Packet) : p &&& mask = pattern ↔
    p.op &&& mask.extractLsb' 0 8 = pattern.extractLsb' 0 8 ∧
    p.z &&& mask.extractLsb' 32 32 = pattern.extractLsb' 32 32 ∧
    p.m &&& mask.extractLsb' 8 8 = pattern.extractLsb' 8 8 ∧
    p.w &&& mask.extractLsb' 16 16 = pattern.extractLsb' 16 16 ∧
    p.a &&& mask.extractLsb' 64 64 = pattern.extractLsb' 64 64 ∧
    p.v &&& mask.extractLsb' 128 128 = pattern.extractLsb' 128 128 := by
  simp only [Packet.op, Packet.m, Packet.w, Packet.z, Packet.a, Packet.v, ← BitVec.extractLsb'_and]
  exact ⟨fun h => by simp only [h, and_self],
    fun ⟨hop, hz, hm, hw, ha, hv⟩ => Packet.ext_fields hv ha hz hw hm hop⟩

/-- A mask literal of all ones, which `simp` recognises by the hypothesis, keeps the field. -/
theorem and_of_eq_allOnes {n : Nat} {x mask : BitVec n} (h : mask = BitVec.allOnes n) :
    x &&& mask = x := by
  rw [h, BitVec.and_allOnes]

theorem decodes_of_carries {p : Packet} (i : Instr) (hop : p.op = i.opcode) (hz : p.z = 0)
    (hfields : p.Carries i) : ∃ j, decode p = .ok j ∧ j.mnemonic = i.mnemonic :=
  ⟨i, decode_eq_ok.mpr ⟨hop, hz, hfields⟩, rfl⟩

/-- A packet a row admits decodes to the row's command, the operands read from the fields the mask leaves out. -/
theorem decodes_of_admits {p : Packet} {r : OpcodeRow} (hr : r ∈ opcodeRows)
    (h : r.admits p = true) : ∃ i, decode p = .ok i ∧ i.mnemonic = r.mnemonic := by
  simp only [OpcodeRow.admits, Bool.and_eq_true, beq_iff_eq, decide_eq_true_eq,
    Packet.and_eq_iff] at h
  simp only [opcodeRows, List.mem_cons, List.not_mem_nil, or_false] at hr
  rcases hr with rfl | rfl | rfl | rfl | rfl | rfl | rfl | rfl | rfl | rfl | rfl | rfl | rfl <;>
    simp only [BitVec.ofNat_eq_ofNat, BitVec.reduceExtractLsb', BitVec.reduceAllOnes,
      BitVec.extractLsb'_zero, and_of_eq_allOnes, BitVec.and_zero, true_and, and_true] at h <;>
    obtain ⟨⟨hop, hz, hmask⟩, hbound⟩ := h
  · exact decodes_of_carries .nop hop hz hmask
  · exact decodes_of_carries .clear hop hz hmask
  · obtain ⟨c, hc⟩ := exists_index_of_lt hbound
    exact decodes_of_carries (.rdcsr c) hop hz ⟨hc, hmask⟩
  · exact decodes_of_carries (.pack _ _ _) hop hz ⟨hmask, rfl, rfl, rfl⟩
  · obtain ⟨hm, hv⟩ := hmask
    exact decodes_of_carries (.unpack _ _) hop hz ⟨hm, rfl, rfl, hv⟩
  · obtain ⟨hm, hw, ha⟩ := hmask
    exact decodes_of_carries (.scan _) hop hz ⟨hm, hw, ha, rfl⟩
  · obtain ⟨md, hmd⟩ := exists_code_of_lt hbound
    exact decodes_of_carries (.begin md _) hop hz ⟨hmd, rfl, hmask⟩
  · obtain ⟨md, hmd⟩ := exists_code_of_lt hbound
    exact decodes_of_carries (.begina md) hop hz ⟨hmd, hmask⟩
  · obtain ⟨hm, hw, ha⟩ := hmask
    exact decodes_of_carries (.push _) hop hz ⟨hm, hw, ha, rfl⟩
  · exact decodes_of_carries .sealBuild hop hz hmask
  · obtain ⟨md, hmd⟩ := exists_code_of_lt hbound
    exact decodes_of_carries (.attach md _ _) hop hz ⟨hmd, rfl, rfl, hmask⟩
  · obtain ⟨hm, hw, hv⟩ := hmask
    exact decodes_of_carries (.get _) hop hz ⟨hm, hw, rfl, hv⟩
  · obtain ⟨hm, hw, hv⟩ := hmask
    exact decodes_of_carries (.sbit _) hop hz ⟨hm, hw, rfl, hv⟩

/-- The row with a command's mnemonic admits the packets that decode to the command. -/
theorem admits_of_decode {p : Packet} {i : Instr} (h : decode p = .ok i) :
    ∀ r ∈ opcodeRows, i.mnemonic = r.mnemonic → r.admits p = true := by
  obtain ⟨hop, hz, hfields⟩ := decode_eq_ok.mp h
  cases i <;> simp only [Packet.Carries] at hfields <;>
    simp [opcodeRows, Instr.mnemonic, OpcodeRow.admits, Packet.and_eq_iff, hop, hz, hfields,
      Instr.opcode, Mode.code_le_one, Csr.index_lt]

/-- Settles O3: one direction by the rows, the other by the commands. -/
theorem decoderFollowsMaskTable : Obligations.DecoderFollowsMaskTable :=
  fun _ r hr => ⟨decodes_of_admits hr, fun ⟨_, hdecode, hname⟩ => admits_of_decode hdecode r hr hname⟩

/-! ## Illegal packets (R78) -/

theorem Packet.accept_ne_illegalOp (p : Packet) (unused : Bool) (i : Instr) :
    p.accept unused i ≠ .error .illegalOp := by
  unfold Packet.accept
  split_ifs <;> simp

theorem Packet.acceptSel_ne_illegalOp {α : Type} (p : Packet) (sel : Option α) (unused : Bool)
    (i : α → Instr) : p.acceptSel sel unused i ≠ .error .illegalOp := by
  cases sel with
  | none => simp [Packet.acceptSel]
  | some x => exact p.accept_ne_illegalOp unused (i x)

/-- Only the last branch of the decoder, where the opcode is none of the thirteen, answers `E_ILLEGAL_OP` (R78). -/
theorem decode_eq_illegalOp {p : Packet} : decode p = .error .illegalOp ↔
    p.op ∉ ([0x00, 0x01, 0x02, 0x10, 0x11, 0x20, 0x21, 0x22, 0x23, 0x24, 0x25, 0x30, 0x31] :
      List (BitVec 8)) := by
  unfold decode
  split
  case h_14 => simp_all [BitVec.toNat_eq]
  all_goals
    simp_all [BitVec.toNat_eq, Packet.accept_ne_illegalOp, Packet.acceptSel_ne_illegalOp]

/-- Every command has a row (R85). -/
theorem exists_row (i : Instr) : ∃ r ∈ opcodeRows, i.mnemonic = r.mnemonic := by
  cases i <;> simp [opcodeRows, Instr.mnemonic]

theorem no_row_admits_iff {p : Packet} :
    (∀ r ∈ opcodeRows, r.admits p = false) ↔ ∀ i, decode p ≠ .ok i := by
  constructor
  · intro hrows i hdecode
    obtain ⟨r, hr, hname⟩ := exists_row i
    simpa [hrows r hr] using admits_of_decode hdecode r hr hname
  · intro hdecode r hr
    by_contra hadmits
    obtain ⟨i, hi, -⟩ := decodes_of_admits hr (by simpa using hadmits)
    exact hdecode i hi

/-- Settles O4: an assigned opcode excludes `E_ILLEGAL_OP`, and having no row excludes a command; one answer is left. -/
theorem illegalPacketsByCause : Obligations.IllegalPacketsByCause := by
  intro p
  refine ⟨decode_eq_illegalOp, ?_⟩
  rw [← not_iff_comm.mp decode_eq_illegalOp.symm, no_row_admits_iff]
  cases decode p with
  | ok i => simp
  | error e => cases e <;> simp

end Sys2Proof
end

section
/-! A packet as 32 bytes, the bytes read as the digits of a number in base 256 (30_encoding.md R71), and words written
out (R70, R77). -/

namespace Sys2Proof

theorem natOfBytes_eq_ofDigits (bs : List Byte) :
    natOfBytes bs = Nat.ofDigits 256 (bs.map BitVec.toNat) := by
  induction bs with
  | nil => rfl
  | cons b bs ih => rw [natOfBytes, ih, List.map_cons, Nat.ofDigits_cons]

theorem toNat_lt_of_mem_map {bs : List Byte} : ∀ d ∈ bs.map BitVec.toNat, d < 256 := by
  simpa using fun (b : Byte) _ => b.isLt

theorem natOfBytes_append (bs : List Byte) (b : Byte) :
    natOfBytes (bs ++ [b]) = natOfBytes bs + 256 ^ bs.length * b.toNat := by
  simp [natOfBytes_eq_ofDigits, Nat.ofDigits_append]

theorem natOfBytes_lt (bs : List Byte) : natOfBytes bs < 256 ^ bs.length := by
  simpa [natOfBytes_eq_ofDigits] using
    Nat.ofDigits_lt_base_pow_length (by decide) (toNat_lt_of_mem_map (bs := bs))

/-- Bytes are determined by their number and their value. -/
theorem natOfBytes_inj {bs cs : List Byte} (hlen : bs.length = cs.length)
    (h : natOfBytes bs = natOfBytes cs) : bs = cs := by
  rw [natOfBytes_eq_ofDigits, natOfBytes_eq_ofDigits] at h
  have hdigits : bs.map BitVec.toNat = cs.map BitVec.toNat :=
    Nat.ofDigits_inj_of_len_eq (by decide) (by simpa using hlen) toNat_lt_of_mem_map
      toNat_lt_of_mem_map h
  exact List.map_injective_iff.mpr (fun _ _ => BitVec.eq_of_toNat_eq) hdigits

/-- The first `n` bytes of a packet carry its low `8 * n` bits. -/
theorem natOfBytes_lowBytes (p : Packet) (n : Nat) :
    natOfBytes ((List.range n).map fun m => p.extractLsb' (8 * m) 8) = p.toNat % 256 ^ n := by
  induction n with
  | zero => simp [natOfBytes, Nat.mod_one]
  | succ n ih =>
    rw [List.range_succ, List.map_append, List.map_singleton, natOfBytes_append, ih,
      Nat.mod_pow_succ]
    simp [Nat.shiftRight_eq_div_pow, pow_mul]

@[simp] theorem length_packetBytes (p : Packet) : (packetBytes p).length = 32 := by
  simp [packetBytes]

theorem natOfBytes_packetBytes (p : Packet) : natOfBytes (packetBytes p) = p.toNat :=
  (natOfBytes_lowBytes p 32).trans (Nat.mod_eq_of_lt p.isLt)

theorem packetOfBytes_eq_some {bs : List Byte} {p : Packet} :
    packetOfBytes bs = some p ↔ bs.length = 32 ∧ natOfBytes bs = p.toNat := by
  unfold packetOfBytes
  split_ifs with hlen
  · have hlt : natOfBytes bs < 2 ^ 256 := by simpa [hlen] using natOfBytes_lt bs
    rw [Option.some.injEq, ← BitVec.toNat_inj, BitVec.toNat_ofNat, Nat.mod_eq_of_lt hlt]
    exact (and_iff_right hlen).symm
  · simp [hlen]

/-- Settles O5: a packet and its bytes carry the same number, and 32 bytes are determined by theirs. -/
theorem packetBytesLittleEndian : Obligations.PacketBytesLittleEndian := by
  refine ⟨fun p => ⟨length_packetBytes p, ?_, fun m hm => ?_⟩, fun bs p h => ?_⟩
  · exact packetOfBytes_eq_some.mpr ⟨length_packetBytes p, natOfBytes_packetBytes p⟩
  · simp [packetBytes, hm]
  · obtain ⟨hlen, hnat⟩ := packetOfBytes_eq_some.mp h
    exact natOfBytes_inj ((length_packetBytes p).trans hlen.symm)
      ((natOfBytes_packetBytes p).trans hnat.symm)

/-- Settles O6: the decoder evaluated on each word. -/
theorem sampleWordsDecode : Obligations.SampleWordsDecode :=
  ⟨rfl, rfl, rfl, rfl, rfl⟩

end Sys2Proof
end

section
/-! The response to a packet, legal or not (30_encoding.md R74, R78; 60_exceptions.md R170, R176). -/

namespace Sys2Proof.Machine

/-- Between `STATUS` and `R` a response is zero (R74). -/
theorem extractLsb'_responsePacket_pad (st : BitVec 8) (r : BitVec 128) :
    (responsePacket st r).extractLsb' 8 120 = 0 := by
  ext i hi
  simp only [responsePacket, BitVec.getElem_extractLsb', BitVec.getLsbD_append]
  simp [hi, show ¬(8 + i < 8) by omega]

/-- Settles O7: `STATUS`, the zero bits and `R`. -/
theorem responseLayout : Obligations.ResponseLayout :=
  fun st r => ⟨responseStatus_responsePacket st r, extractLsb'_responsePacket_pad st r,
    responseResult_responsePacket st r⟩

/-- Settles O9: the packet is taken from the port, and the error entry is `afterError` with the code of the cause. -/
theorem stepRejectsIllegalPacket : Obligations.StepRejectsIllegalPacket := by
  intro s p rest hport
  rw [step_of_packet hport]
  exact ⟨fun h => runPacket_of_error h _, fun h => runPacket_of_error h _⟩

/-- The fourteen codes (R170). -/
theorem ErrorCode.code_mem (c : ErrorCode) :
    c.code ∈ ([0x10, 0x11, 0x12, 0x13, 0x14, 0x15, 0x16, 0x20, 0x50, 0x51, 0x60, 0x61, 0x70, 0x71] :
      List (BitVec 8)) := by
  cases c <;> decide

/-- A packet, illegal or run as a command, ends with one response: OK, or an error with result 0 (R74, R198). -/
theorem runPacket_responds (p : Packet) (s : State) : ∃ t st r, runPacket p s = .next t ∧
    t.port = s.port ∧ t.resp = some (responsePacket st r) ∧
    (st = statusOk ∨ r = 0 ∧ ∃ c : ErrorCode, st = c.code) := by
  cases hdecode : decode p with
  | error e => exact ⟨_, _, _, runPacket_of_error hdecode s, rfl, rfl, .inr ⟨rfl, _, rfl⟩⟩
  | ok i =>
    obtain ⟨t, hexec, hend⟩ := exec_cases i s
    have hrun : runPacket p s = .next t := (runPacket_of_ok hdecode s).trans hexec
    rcases hend with ⟨c, rfl, -⟩ | ⟨c, v, -, -, rfl⟩ | ⟨u, r, rfl⟩
    · exact ⟨_, _, _, hrun, exec_port hexec, rfl, .inr ⟨rfl, c, rfl⟩⟩
    · exact ⟨_, _, _, hrun, exec_port hexec, rfl, .inr ⟨rfl, c, rfl⟩⟩
    · exact ⟨_, _, _, hrun, exec_port hexec, rfl, .inl rfl⟩

/-- Settles O13: the step takes the packet and runs it, and every code raised is one of the fourteen. -/
theorem everyPacketGetsOneResponse : Obligations.EveryPacketGetsOneResponse := by
  intro s p rest hport
  obtain ⟨t, st, r, hrun, hkeep, hresp, hst⟩ := runPacket_responds p { s with port := rest }
  refine ⟨t, st, r, (step_of_packet hport).trans hrun, hkeep, hresp, ?_⟩
  rcases hst with hok | ⟨hr, c, rfl⟩
  · exact .inl hok
  · exact .inr ⟨hr, c.code_mem⟩

end Sys2Proof.Machine
end

section
/-! The chunk loops of `unpack` and `pack` against the sums of R92 and R94, and the number of their chunks
(40_bitstream_primitives.md R92, R94, R96; 70_reset_and_hazards.md R197). -/

namespace Sys2Proof.Machine

/-! ## The same results -/

/-- Canonical storages whose words agree bit by bit are the same. -/
theorem Memory.ext_bits {m m' : Memory} (h : m.wf) (h' : m'.wf)
    (hbits : ∀ j, ∀ i < 32, (m.word j).getLsbD i = (m'.word j).getLsbD i) : m = m' := by
  refine Memory.ext h h' fun a => BitVec.eq_of_getLsbD_eq fun t ht => ?_
  have hbit := hbits (a / 4) (8 * (a % 4) + t) (by omega)
  have hbyte : 4 * (a / 4) + (8 * (a % 4) + t) / 8 = a := by omega
  have hmod : (8 * (a % 4) + t) % 8 = t := by omega
  simpa only [Memory.getLsbD_word _ _ _ (show 8 * (a % 4) + t < 32 by omega), hbyte, hmod]
    using hbit

/-- The chunk loop of `unpack` gives the sum of R92: bit by bit both are the stream bits of the field. -/
theorem State.unpack_eq_unpackBits (s : State) (a w : Nat) : s.unpack a w = s.unpackBits a w :=
  Nat.eq_of_testBit_eq fun t => (s.testBit_unpack a w t).trans (s.testBit_unpackBits a w t).symm

/-- The chunk loop of `pack` leaves the storage that the bit-by-bit loop of R94 leaves. -/
theorem Memory.packLoop_eq_packBits {m : Memory} (h : m.wf) (a v w : Nat) :
    m.packLoop a v w w 0 = m.packBits a v w := by
  refine Memory.ext_bits (Memory.wf_packLoop h _ _ _ _ _) (Memory.wf_packBits h _ _ _)
    fun j i hi => ?_
  rw [Memory.getLsbD_packLoop h a v w w 0 (by omega) j i hi, Memory.getLsbD_packBits h a v w j hi,
    Nat.add_zero]

/-- Settles O48: both loops by the bits they give; `extend` is the same in both descriptions of `pack`. -/
theorem chunkLoopsEqualSums : Obligations.ChunkLoopsEqualSums := by
  refine ⟨State.unpack_eq_unpackBits, fun s a w v hmem _ => ?_⟩
  simp only [State.pack, State.packBits, Memory.packLoop_eq_packBits (State.wf_extend hmem _)]

/-! ## The number of chunks -/

theorem wordsTouched_zero (a : Nat) : wordsTouched a 0 = 0 := rfl

/-- A field touches no more words than it has bits. -/
theorem wordsTouched_le (a w : Nat) : wordsTouched a w ≤ w := by
  unfold wordsTouched
  split_ifs <;> omega

/-- A chunk ends with its word or with the field: what is left of the field touches one word less. -/
theorem wordsTouched_chunk {a w done : Nat} (h : done < w) :
    wordsTouched (a + done) (w - done) =
      wordsTouched (a + (done + chunkSize a w done)) (w - (done + chunkSize a w done)) + 1 := by
  unfold wordsTouched chunkSize
  split_ifs <;> omega

/-- With one round for each word the rest of the field touches, more rounds change nothing. -/
theorem State.unpackLoop_of_rounds (s : State) {a w fuel done : Nat} (r : Nat)
    (h : wordsTouched (a + done) (w - done) ≤ fuel) :
    s.unpackLoop a w fuel done r =
      s.unpackLoop a w (wordsTouched (a + done) (w - done)) done r := by
  induction fuel generalizing done r with
  | zero => rw [Nat.le_zero.mp h]
  | succ fuel ih =>
    by_cases hlt : done < w
    · rw [wordsTouched_chunk hlt] at h ⊢
      simp only [State.unpackLoop, if_pos hlt]
      exact ih _ (by omega)
    · rw [Nat.sub_eq_zero_of_le (not_lt.mp hlt), wordsTouched_zero]
      simp only [State.unpackLoop, if_neg hlt]

/-- As `State.unpackLoop_of_rounds`, for the loop of `pack`. -/
theorem Memory.packLoop_of_rounds (m : Memory) {a v w fuel done : Nat}
    (h : wordsTouched (a + done) (w - done) ≤ fuel) :
    m.packLoop a v w fuel done =
      m.packLoop a v w (wordsTouched (a + done) (w - done)) done := by
  induction fuel generalizing m done with
  | zero => rw [Nat.le_zero.mp h]
  | succ fuel ih =>
    by_cases hlt : done < w
    · rw [wordsTouched_chunk hlt] at h ⊢
      simp only [Memory.packLoop, if_pos hlt]
      exact ih _ (by omega)
    · rw [Nat.sub_eq_zero_of_le (not_lt.mp hlt), wordsTouched_zero]
      simp only [Memory.packLoop, if_neg hlt]

theorem wordsTouched_le_two {a w : Nat} (h : w ≤ 32) : wordsTouched a w ≤ 2 := by
  unfold wordsTouched
  split_ifs <;> omega

theorem wordsTouched_le_three {a w : Nat} (h : w ≤ 64) : wordsTouched a w ≤ 3 := by
  unfold wordsTouched
  split_ifs <;> omega

/-- Settles O49: the machine gives each loop as many rounds as the field has bits, which is enough. -/
theorem oneChunkPerWordTouched : Obligations.OneChunkPerWordTouched := by
  intro a w
  exact ⟨fun s => (s.unpackLoop_of_rounds 0 (done := 0) (wordsTouched_le a w)).symm,
    fun m v => (m.packLoop_of_rounds (done := 0) (wordsTouched_le a w)).symm,
    wordsTouched_le_two, wordsTouched_le_three⟩

end Sys2Proof.Machine
end

section
/-! `PACK` and `UNPACK`: what they do when they complete, their errors, and that the reading commands are pure
(40_bitstream_primitives.md R92 to R97; 60_exceptions.md R175, R176; R99). -/

namespace Sys2Proof.Machine

/-! ## `PACK` that completes (R94, R95) -/

/-- What a `PACK` that meets its conditions makes of the block, its response aside: width 0 changes nothing, not even
`LEN` (R95). -/
def State.packed (s : State) (a v w : Nat) : State := if w = 0 then s else s.pack a v w

theorem State.packed_zero (s : State) (a v : Nat) : s.packed a v 0 = s := rfl

theorem State.packed_of_pos (s : State) (a v : Nat) {w : Nat} (hw : 0 < w) :
    s.packed a v w = s.pack a v w := if_neg hw.ne'

/-- `PACK` writes no field but `len` and `mem`. -/
theorem State.packed_withArray (s : State) (a v w : Nat) (len : BitVec 32) (mem : Memory) :
    ({ s.packed a v w with len := len, mem := mem } : State) =
      { s with len := len, mem := mem } := by
  unfold State.packed State.pack State.extend
  split_ifs <;> rfl

theorem State.extend_respond (s : State) (r : BitVec 128) (need : Nat) :
    (s.respond r).extend need = (s.extend need).respond r := by
  unfold State.extend
  rw [State.respond_len]
  split <;> rfl

/-- `PACK` does not read the response. -/
theorem State.packed_respond (s : State) (r : BitVec 128) (a v w : Nat) :
    (s.respond r).packed a v w = (s.packed a v w).respond r := by
  unfold State.packed State.pack
  rw [State.extend_respond]
  split <;> rfl

@[simp] theorem State.packed_phase (s : State) (a v w : Nat) :
    (s.packed a v w).phase = s.phase := by
  unfold State.packed; split <;> simp

@[simp] theorem State.packed_cap (s : State) (a v w : Nat) : (s.packed a v w).cap = s.cap := by
  unfold State.packed; split <;> simp

section
variable {s : State} {a w v : Nat}

/-- The words a packable field of positive width needs are within the capacity. -/
theorem State.packable.wordsNeeded_lt (hpack : s.packable a w v) (hw : 0 < w) :
    wordsNeeded a w < 2 ^ 32 := by
  obtain ⟨-, -, -, hcap⟩ := hpack
  exact wordsNeeded_lt_of_le_cap (hcap hw)

/-- A `PACK` that passes every check completes and answers 0. -/
theorem exec_pack_of_packable (hpack : s.packable a w v) :
    exec (.pack w a v) s = .next ((s.packed a v w).respond 0) := by
  obtain ⟨hphase, hmax, hfit, hcap⟩ := hpack
  have hfit : ¬((v : Int) ≥ 2 ^ w) := not_le.mpr (by exact_mod_cast hfit)
  simp only [exec, execPack, Int.toNat_natCast]
  rw [if_neg (not_not.mpr hphase), if_neg (by omega), if_neg (by simpa using hmax),
    if_neg (by omega), if_neg (by omega), if_neg hfit]
  rcases Nat.eq_zero_or_pos w with rfl | hw
  · rw [if_pos Nat.cast_zero, State.packed_zero]
  · have hcap : ¬(wordsNeeded a w > s.cap.toNat) := not_lt.mpr (hcap hw)
    rw [if_neg (by omega), if_neg hcap, State.packed_of_pos s a v hw]

theorem State.wf_packed (hmem : s.mem.wf) (a v w : Nat) : (s.packed a v w).mem.wf := by
  unfold State.packed
  split
  · exact hmem
  · exact State.wf_pack hmem a v w

/-- `LEN` after a `PACK`: what the field needs, if that is more (R93). -/
theorem State.len_packed (hpack : s.packable a w v) :
    (s.packed a v w).len.toNat = max s.len.toNat (if w = 0 then 0 else wordsNeeded a w) := by
  rcases Nat.eq_zero_or_pos w with rfl | hw
  · rw [State.packed_zero, if_pos rfl, Nat.max_zero]
  · rw [State.packed_of_pos s a v hw, if_neg hw.ne',
      State.len_pack s a v w (hpack.wordsNeeded_lt hw)]

/-- The stream after a `PACK`: its field holds the value, every other bit is as before (R94). -/
theorem State.bit_packed (hmem : s.mem.wf) (hpack : s.packable a w v) (b : Nat) :
    (s.packed a v w).bit b = if a ≤ b ∧ b < a + w then v.testBit (b - a) else s.bit b := by
  rcases Nat.eq_zero_or_pos w with rfl | hw
  · rw [State.packed_zero, if_neg (by omega)]
  · rw [State.packed_of_pos s a v hw, State.bit_pack hmem (hpack.wordsNeeded_lt hw)]

/-- The field of a `PACK` reads as the value stored. -/
theorem State.unpack_packed_self (hmem : s.mem.wf) (hpack : s.packable a w v) :
    (s.packed a v w).unpack a w = v := by
  obtain ⟨-, -, hfit, -⟩ := id hpack
  refine State.unpack_eq_value hfit fun u hu => ?_
  rw [State.bit_packed hmem hpack, if_pos (by omega), Nat.add_sub_cancel_left]

/-- A field that does not overlap the one a `PACK` writes reads as before. -/
theorem State.unpack_packed_of_disjoint (hmem : s.mem.wf) (hpack : s.packable a w v) {a' w' : Nat}
    (hdisjoint : a' + w' ≤ a ∨ a + w ≤ a') :
    (s.packed a v w).unpack a' w' = s.unpack a' w' := by
  refine State.unpack_eq_of_bits fun u hu => ?_
  rw [State.bit_packed hmem hpack, if_neg (by omega)]

end

/-- Settles O17: width 0 answers at once; else the array is the one `pack` leaves. -/
theorem packWritesField : Obligations.PackWritesField := by
  intro s a w v hmem hpack
  have hexec := exec_pack_of_packable hpack
  refine ⟨?_, fun hw => ?_⟩
  · rintro rfl
    exact hexec
  · have hself := s.packed_withArray a v w (s.packed a v w).len (s.packed a v w).mem
    refine ⟨(s.packed a v w).len, (s.packed a v w).mem, ?_, ?_, State.wf_packed hmem a v w,
      fun b => ?_⟩
    · rw [← hself]
      exact hexec
    · rw [State.len_packed hpack, if_neg hw.ne', wordsNeeded]
    · rw [← hself]
      exact State.bit_packed hmem hpack b

/-! ## `UNPACK` that completes (R92, R97) -/

/-- An `UNPACK` that passes every check answers the field. -/
theorem exec_unpack_of_legal {s : State} {w : Nat} (hphase : s.phase = .raw ∨ s.phase = .sealed)
    (hw : w ≤ 64) (a : Nat) :
    exec (.unpack w a) s = .next (s.respond (BitVec.ofNat 128 (s.unpack a w))) := by
  simp only [exec, execUnpack, Int.toNat_natCast]
  rw [if_neg (by tauto), if_neg (by omega), if_neg (by simpa using hw), if_neg (by omega)]

/-- The result field of the response holds every field an `UNPACK` can read. -/
theorem State.toNat_unpack_result (s : State) (a : Nat) {w : Nat} (hw : w ≤ 64) :
    (BitVec.ofNat 128 (s.unpack a w)).toNat = s.unpack a w :=
  Nat.mod_eq_of_lt ((s.unpack_lt a w).trans_le (Nat.pow_le_pow_right (by decide) (by omega)))

/-- Settles O18: the answer is the result of the chunk loop, which is the sum and has the bits of the field. -/
theorem unpackAnswersField : Obligations.UnpackAnswersField := by
  intro s a w hphase hw
  have hresult := s.toNat_unpack_result a hw
  refine ⟨_, exec_unpack_of_legal hphase hw a, hresult.trans (s.unpack_eq_unpackBits a w),
    fun t => ?_⟩
  rw [← BitVec.testBit_toNat, hresult, State.testBit_unpack]

/-! ## Errors (R95, R97, R175, R176) -/

/-- `PACK` in RAW with a legal width goes on to the start bit, the value, and the capacity. -/
theorem exec_pack_of_legal_width {s : State} {w : Int} (hphase : s.phase = .raw) (hneg : 0 ≤ w)
    (hmax : w ≤ 64) (a v : Int) :
    exec (.pack w a v) s =
      if a < 0 then .next (s.failWith .negStart)
      else if v < 0 then .next (s.failWith .negValue)
      else if v ≥ 2 ^ w.toNat then .next (s.failWith .noFit)
      else if w = 0 then .next (s.respond 0)
      else if wordsNeeded a.toNat w.toNat > s.cap.toNat then .next (s.failWith .capWords)
      else .next ((s.pack a.toNat v.toNat w.toNat).respond 0) := by
  rw [exec, execPack, if_neg (not_not.mpr hphase), if_neg (not_lt.mpr hneg),
    if_neg (by simpa using hmax)]

/-- The errors of `PACK` in RAW, each under the conditions in which its check is the first to fail. -/
theorem exec_pack_errors {s : State} (hphase : s.phase = .raw) (w a v : Int) :
    (w < 0 → exec (.pack w a v) s = .next (s.failWith .negWidth)) ∧
    (64 < w → exec (.pack w a v) s = .next (s.failWith .widthMax)) ∧
    (0 ≤ w → w ≤ 64 →
      (a < 0 → exec (.pack w a v) s = .next (s.failWith .negStart)) ∧
      (0 ≤ a → v < 0 → exec (.pack w a v) s = .next (s.failWith .negValue)) ∧
      (0 ≤ a → 2 ^ w.toNat ≤ v → exec (.pack w a v) s = .next (s.failWith .noFit)) ∧
      (0 ≤ a → 0 ≤ v → v < 2 ^ w.toNat → 0 < w → s.cap.toNat < ceilDiv (a + w).toNat 32 →
        exec (.pack w a v) s = .next (s.failWith .capWords))) := by
  refine ⟨fun hw => ?_, fun hw => ?_, fun hneg hmax => ?_⟩
  · rw [exec, execPack, if_neg (not_not.mpr hphase), if_pos hw]
  · rw [exec, execPack, if_neg (not_not.mpr hphase), if_neg (by omega), if_pos (by simpa using hw)]
  · rw [exec_pack_of_legal_width hphase hneg hmax]
    refine ⟨fun ha => if_pos ha, fun ha hv => ?_, fun ha hfit => ?_, fun ha hv hfit hw hcap => ?_⟩
    · rw [if_neg (not_lt.mpr ha), if_pos hv]
    · have hv : 0 ≤ v := le_trans (by positivity) hfit
      rw [if_neg (not_lt.mpr ha), if_neg (not_lt.mpr hv), if_pos hfit]
    · have hneed : wordsNeeded a.toNat w.toNat > s.cap.toNat := by
        rw [wordsNeeded, ← Int.toNat_add ha hneg]
        exact hcap
      rw [if_neg (not_lt.mpr ha), if_neg (not_lt.mpr hv), if_neg (not_le.mpr hfit),
        if_neg hw.ne', if_pos hneed]

/-- The errors of `UNPACK` in RAW and SEALED, in the same way. -/
theorem exec_unpack_errors {s : State} (hphase : s.phase = .raw ∨ s.phase = .sealed) (w a : Int) :
    (w < 0 → exec (.unpack w a) s = .next (s.failWith .negWidth)) ∧
    (64 < w → exec (.unpack w a) s = .next (s.failWith .widthMax)) ∧
    (0 ≤ w → w ≤ 64 → a < 0 → exec (.unpack w a) s = .next (s.failWith .negStart)) := by
  have hphase : ¬(s.phase ≠ .raw ∧ s.phase ≠ .sealed) := by tauto
  refine ⟨fun hw => ?_, fun hw => ?_, fun hneg hmax ha => ?_⟩
  · rw [exec, execUnpack, if_neg hphase, if_pos hw]
  · rw [exec, execUnpack, if_neg hphase, if_neg (by omega), if_pos (by simpa using hw)]
  · rw [exec, execUnpack, if_neg hphase, if_neg (not_lt.mpr hneg),
      if_neg (by simpa using hmax), if_pos ha]

/-- Settles O28: the error entry is `afterError` with the code of the check. -/
theorem bitstreamErrors : Obligations.BitstreamErrors :=
  fun _ w a v => ⟨fun hphase => exec_pack_errors hphase w a v,
    fun hphase => exec_unpack_errors hphase w a⟩

/-! ## Reading commands (R99) -/

/-- A reading command that completes changes nothing. -/
theorem Completes.eq_of_read {i : Instr} {s u : State} (h : Completes s i u)
    (hread : (∃ w a, i = .unpack w a) ∨ (∃ x, i = .get x) ∨ (∃ x, i = .sbit x) ∨
      ∃ c, i = .rdcsr c) : u = s := by
  cases h with
  | unchanged => rfl
  | _ => simp at hread

/-- Settles O37: by the ways a command ends; an error has a status other than 0, a completed command has status 0. -/
theorem readsArePure : Obligations.ReadsArePure := by
  intro i s t q hread h hq
  cases exec_ends h with
  | refused | failed =>
    simp only [State.failWith_resp, Option.some.injEq] at hq
    subst hq
    exact ⟨fun hok => absurd (by simpa using hok) (ErrorCode.code_ne_zero _), fun _ => rfl⟩
  | killed c v hpush => simp [hpush] at hread
  | completed r _ heffect =>
    obtain rfl := heffect.eq_of_read hread
    simp only [State.respond_resp, Option.some.injEq] at hq
    subst hq
    exact ⟨fun _ => rfl, fun herr => by simp [statusOk] at herr⟩

end Sys2Proof.Machine
end

section
/-! The laws of `PACK` and `UNPACK`: reading back, overwriting, commuting (40_bitstream_primitives.md R98). -/

namespace Sys2Proof.Machine

/-- Settles O50: after the `PACK` its own field reads as the value, a disjoint field as before. -/
theorem packReadsBack : Obligations.PackReadsBack := by
  intro s a w v hmem hpack
  obtain ⟨hphase, hw, -, -⟩ := id hpack
  have hafter : ((s.packed a v w).respond 0).phase = .raw ∨
      ((s.packed a v w).respond 0).phase = .sealed := .inl (by simpa using hphase)
  refine ⟨_, exec_pack_of_packable hpack, ?_, fun a' w' hw' hdisjoint u hu => ?_⟩
  · rw [exec_unpack_of_legal hafter hw, State.unpack_respond, State.unpack_packed_self hmem hpack]
    rfl
  · rw [exec_unpack_of_legal (.inl hphase) hw'] at hu
    injection hu with hu
    rw [exec_unpack_of_legal hafter hw', State.unpack_respond,
      State.unpack_packed_of_disjoint hmem hpack hdisjoint, ← hu]
    rfl

/-! ## Equality of states by their stream bits -/

/-- The storage of a state that meets the invariants is its stream. -/
theorem State.Inv.getLsbD_word {s : State} (hinv : s.Inv) (j : Nat) {i : Nat} (hi : i < 32) :
    (s.mem.word j).getLsbD i = s.bit (32 * j + i) := by
  have hdiv : (32 * j + i) / 32 = j := by omega
  have hmod : (32 * j + i) % 32 = i := by omega
  rw [State.bit, hdiv, hmod]
  split_ifs with hin
  · rfl
  · have hunlisted : s.mem.read (4 * j + i / 8) = 0 :=
      Memory.read_eq_zero fun c hc => by have := hinv.mem_below c hc; omega
    rw [Memory.getLsbD_word _ _ _ hi, hunlisted]
    exact BitVec.getLsbD_zero

/-- States that meet the invariants are the same when they have the same registers and the same stream. -/
theorem State.Inv.eq_of_bits {s t : State} (hs : s.Inv) (ht : t.Inv)
    (hrest : { s with len := t.len, mem := t.mem } = t) (hlen : s.len.toNat = t.len.toNat)
    (hbits : ∀ b, s.bit b = t.bit b) : s = t := by
  have hmem : s.mem = t.mem := Memory.ext_bits hs.mem_wf ht.mem_wf fun j i hi => by
    rw [hs.getLsbD_word j hi, ht.getLsbD_word j hi, hbits]
  rw [← hrest, ← hmem, ← BitVec.eq_of_toNat_eq hlen]

section
variable {s : State} {a w v a' w' v' : Nat}

theorem State.Inv.packed (hinv : s.Inv) (hpack : s.packable a w v) : (s.packed a v w).Inv := by
  obtain ⟨hphase, -, -, hcap⟩ := hpack
  rcases Nat.eq_zero_or_pos w with rfl | hw
  · exact hinv
  · rw [State.packed_of_pos s a v hw]
    exact hinv.pack hphase hw (hcap hw) v

/-- What a `PACK` may do depends on the phase and the capacity, which no `PACK` changes. -/
theorem State.packable.packed (hpack : s.packable a w v) (a' v' w' : Nat) :
    (s.packed a' v' w').packable a w v := by
  simpa only [State.packable, State.packed_phase, State.packed_cap] using hpack

/-- The result of a `PACK` does not depend on what its field held (R98.3). -/
theorem State.packed_congr {mem : Memory} (hs : s.Inv) (ht : ({ s with mem := mem } : State).Inv)
    (hpack : s.packable a w v)
    (hbits : ∀ b, b < a ∨ a + w ≤ b → ({ s with mem := mem } : State).bit b = s.bit b) :
    ({ s with mem := mem } : State).packed a v w = s.packed a v w := by
  have hpack' : ({ s with mem := mem } : State).packable a w v := hpack
  refine (ht.packed hpack').eq_of_bits (hs.packed hpack) ?_ ?_ fun b => ?_
  · rw [State.packed_withArray]
    exact (s.packed_withArray a v w _ _).symm
  · rw [State.len_packed hpack', State.len_packed hpack]
  · rw [State.bit_packed ht.mem_wf hpack', State.bit_packed hs.mem_wf hpack]
    split_ifs with hin
    · rfl
    · exact hbits b (by omega)

/-- Repeating a `PACK` changes nothing (R98.5). -/
theorem State.packed_packed (hinv : s.Inv) (hpack : s.packable a w v) :
    (s.packed a v w).packed a v w = s.packed a v w := by
  have hinv' := hinv.packed hpack
  have hpack' := hpack.packed a v w
  refine (hinv'.packed hpack').eq_of_bits hinv' (State.packed_withArray _ a v w _ _) ?_ fun b => ?_
  · rw [State.len_packed hpack', State.len_packed hpack, max_assoc, max_self]
  · rw [State.bit_packed hinv'.mem_wf hpack']
    split_ifs with hin
    · rw [State.bit_packed hinv.mem_wf hpack, if_pos hin]
    · rfl

/-- `PACK`s on fields that do not overlap commute (R98.6). -/
theorem State.packed_comm (hinv : s.Inv) (hpack : s.packable a w v) (hpack' : s.packable a' w' v')
    (hdisjoint : a + w ≤ a' ∨ a' + w' ≤ a) :
    (s.packed a v w).packed a' v' w' = (s.packed a' v' w').packed a v w := by
  have hinv₁ := hinv.packed hpack
  have hinv₂ := hinv.packed hpack'
  have hpack₁ := hpack'.packed a v w
  have hpack₂ := hpack.packed a' v' w'
  refine (hinv₁.packed hpack₁).eq_of_bits (hinv₂.packed hpack₂) ?_ ?_ fun b => ?_
  · rw [State.packed_withArray, State.packed_withArray,
      ← State.packed_withArray s a' v' w', ← State.packed_withArray _ a v w]
  · rw [State.len_packed hpack₁, State.len_packed hpack₂, State.len_packed hpack,
      State.len_packed hpack', max_right_comm]
  · rw [State.bit_packed hinv₁.mem_wf hpack₁, State.bit_packed hinv₂.mem_wf hpack₂,
      State.bit_packed hinv.mem_wf hpack, State.bit_packed hinv.mem_wf hpack']
    by_cases hin : a ≤ b ∧ b < a + w
    · have hout : ¬(a' ≤ b ∧ b < a' + w') := by omega
      rw [if_neg hout, if_pos hin, if_pos hin]
    · rw [if_neg hin, if_neg hin]

/-- A second `PACK` after the first has responded: the block is as after both, and the last response stands. -/
theorem exec_pack_after_pack (a v w : Nat) (hpack' : s.packable a' w' v') :
    exec (.pack w' a' v') ((s.packed a v w).respond 0) =
      .next (((s.packed a v w).packed a' v' w').respond 0) := by
  have hready : ((s.packed a v w).respond 0).packable a' w' v' := hpack'.packed a v w
  rw [exec_pack_of_packable hready, State.packed_respond]
  rfl

end

/-- Settles O51: `PACK` on states that differ in its field alone, and `PACK` twice. -/
theorem packOverwrites : Obligations.PackOverwrites := by
  intro s mem a w v hs ht hpack hbits _
  have hexec := exec_pack_of_packable hpack
  refine ⟨?_, fun t h => ?_⟩
  · rw [exec_pack_of_packable (s := { s with mem := mem }) hpack, hexec,
      State.packed_congr hs ht hpack hbits]
  · rw [hexec] at h
    injection h with h
    rw [← h, exec_pack_after_pack a v w hpack, State.packed_packed hs hpack]

/-- Settles O52: both orders meet because `State.packed` commutes. -/
theorem packsCommute : Obligations.PacksCommute := by
  intro s a w v a' w' v' hinv hpack hpack' hdisjoint
  refine ⟨_, _, _, exec_pack_of_packable hpack, exec_pack_of_packable hpack',
    exec_pack_after_pack a v w hpack', ?_⟩
  rw [State.packed_comm hinv hpack hpack' hdisjoint]
  exact exec_pack_after_pack a' v' w' hpack

end Sys2Proof.Machine
end

section
/-! The derived width and the start bits of both layouts (41_crossing_packer.md R110 to R112; 43_structure_commands.md
R135). -/

namespace Sys2Proof.Machine

theorem bitLength_zero : bitLength 0 = 0 := rfl

theorem bitLength_of_pos {x : Nat} (hx : 0 < x) : bitLength x = Nat.log2 x + 1 := if_neg hx.ne'

/-- `bit_length` is the least number of bits that hold the value (R110). -/
theorem bitLength_le_iff {x b : Nat} : bitLength x ≤ b ↔ x < 2 ^ b := by
  refine ⟨fun h => ?_, bitLength_le⟩
  rcases Nat.eq_zero_or_pos x with rfl | hx
  · exact Nat.two_pow_pos b
  · rw [bitLength_of_pos hx] at h
    exact (Nat.log2_lt hx.ne').mp h

theorem lt_two_pow_bitLength (x : Nat) : x < 2 ^ bitLength x := bitLength_le_iff.mp le_rfl

theorem two_pow_pred_bitLength_le {x : Nat} (hx : 0 < x) : 2 ^ (bitLength x - 1) ≤ x := by
  rw [bitLength_of_pos hx]
  exact Nat.log2_self_le hx.ne'

/-- Settles O40: the two bounds are those of the binary logarithm; the examples are evaluated. -/
theorem bitLengthIsBinaryDigits : Obligations.BitLengthIsBinaryDigits := by
  refine ⟨bitLength_zero, fun x hx => ⟨?_, two_pow_pred_bitLength_le hx, lt_two_pow_bitLength x⟩,
    by decide⟩
  rw [bitLength_of_pos hx]
  exact Nat.le_add_left 1 _

/-- The width of a non-empty list is at most `k` exactly when `k` is a width from 1 up that holds the largest value
(R111). -/
theorem kderive_true_le_iff {smax k : Nat} : kderive true smax ≤ k ↔ 1 ≤ k ∧ smax < 2 ^ k :=
  max_le_iff.trans (and_congr_right fun _ => bitLength_le_iff)

/-- Settles O41: `kderive_true_le_iff` at the derived width itself, and at any other that holds every value. -/
theorem kderiveIsLeastWidth : Obligations.KderiveIsLeastWidth := by
  intro smax
  obtain ⟨hpos, hfit⟩ : 1 ≤ kderive true smax ∧ smax < 2 ^ kderive true smax :=
    kderive_true_le_iff.mp le_rfl
  exact ⟨rfl, rfl, rfl, hpos, fun v hv => hv.trans_lt hfit,
    fun k hk hall => kderive_true_le_iff.mpr ⟨hk, hall smax le_rfl⟩⟩

/-- Settles O46: the cursor rules of `epos` and `eplace`, which hold in both layouts. -/
theorem cursorMeetsElementStarts : Obligations.CursorMeetsElementStarts :=
  fun md k hk hmax => ⟨epos_zero md k, fun n => ⟨eplace_epos hk hmax n, epos_succ md k n⟩⟩

end Sys2Proof.Machine
end

section
/-! The non-crossing layout engine: the cursor rule, its replay, the invariants and the size of the layout
(42_noncrossing_packer.md R121 to R126). -/

namespace Sys2Proof.Machine

/-! ## The cursor rule (R121) -/

theorem ncplace_of_fits {pos k : Nat} (hfits : pos % 32 + k ≤ 32) : ncplace pos k = pos :=
  if_neg hfits.not_gt

theorem ncplace_of_crosses {pos k : Nat} (hcross : 32 < pos % 32 + k) :
    ncplace pos k = (pos / 32 + 1) * 32 :=
  if_pos hcross

/-- A place at or after the cursor that does not straddle lies beyond the word of a cursor that would. -/
theorem next_word_le_of_fits {pos q k : Nat} (hcross : 32 < pos % 32 + k) (hle : pos ≤ q)
    (hfits : q % 32 + k ≤ 32) : (pos / 32 + 1) * 32 ≤ q := by
  have hword : pos / 32 < q / 32 := by omega
  omega

theorem ncplace_fits {k : Nat} (hmax : k ≤ 32) (pos : Nat) : ncplace pos k % 32 + k ≤ 32 := by
  rcases Nat.lt_or_ge 32 (pos % 32 + k) with hcross | hfits
  · rw [ncplace_of_crosses hcross, Nat.mul_mod_left, Nat.zero_add]
    exact hmax
  · rw [ncplace_of_fits hfits]
    exact hfits

theorem ncplace_le {pos q k : Nat} (hle : pos ≤ q) (hfits : q % 32 + k ≤ 32) :
    ncplace pos k ≤ q := by
  rcases Nat.lt_or_ge 32 (pos % 32 + k) with hcross | hroom
  · rw [ncplace_of_crosses hcross]
    exact next_word_le_of_fits hcross hle hfits
  · rw [ncplace_of_fits hroom]
    exact hle

/-- Settles O42: `ncplace` does not straddle (`ncplace_fits`), is least (`ncplace_le`), and an aligned cursor fits. -/
theorem ncplaceAvoidsStraddling : Obligations.NcplaceAvoidsStraddling := fun pos k _ hmax =>
  ⟨rfl, le_eplace .nonCrossing k pos, ncplace_fits hmax pos, fun _ => ncplace_le,
    fun haligned => ncplace_of_fits (by omega)⟩

/-! ## The replay (R122 to R124) -/

/-- The cursor of the closed form takes the steps of the replay. -/
theorem ncpos_eq_ncReplayCursor {k : Nat} (hk : 1 ≤ k) (hmax : k ≤ 32) (n : Nat) :
    ncpos n k = ncReplayCursor k n := by
  induction n with
  | zero => rfl
  | succ n ih =>
    calc ncpos (n + 1) k = ncplace (ncpos n k) k + k := by rw [ncplace_ncpos hk hmax]; rfl
      _ = ncReplayCursor k (n + 1) := by rw [ih]; rfl

/-- Settles O43: the cursors agree by induction, and the start bits are the places at the cursors. -/
theorem noncrossingClosedFormIsReplay : Obligations.NoncrossingClosedFormIsReplay := by
  intro k hk hmax i
  have hcursor := ncpos_eq_ncReplayCursor hk hmax i
  refine ⟨?_, hcursor⟩
  rw [ncReplayStart, ← hcursor, ncplace_ncpos hk hmax]

/-! ## No straddling, no overlap (R125) -/

/-- The elements of a word up to the one of index `i` end inside the word. -/
theorem offset_add_width_le {k : Nat} (hk : 1 ≤ k) (hmax : k ≤ 32) (i : Nat) :
    k * (i % (32 / k)) + k ≤ 32 :=
  calc k * (i % (32 / k)) + k = k * (i % (32 / k) + 1) := rfl
    _ ≤ k * (32 / k) := Nat.mul_le_mul_left k (Nat.mod_lt i (Nat.div_pos hmax hk))
    _ ≤ 32 := Nat.mul_div_le 32 k

/-- The word of element `i` and its offset there. -/
theorem ncstart_div_mod {k : Nat} (hk : 1 ≤ k) (hmax : k ≤ 32) (i : Nat) :
    ncstart i k / 32 = i / (32 / k) ∧ ncstart i k % 32 = k * (i % (32 / k)) := by
  have := offset_add_width_le hk hmax i
  unfold ncstart
  omega

theorem ncstart_fits {k : Nat} (hk : 1 ≤ k) (hmax : k ≤ 32) (i : Nat) :
    ncstart i k % 32 + k ≤ 32 := by
  rw [(ncstart_div_mod hk hmax i).2]
  exact offset_add_width_le hk hmax i

/-- Element `i` ends where the cursor stands after it, and the next one is not placed before the cursor. -/
theorem ncstart_add_le_ncstart_succ {k : Nat} (hk : 1 ≤ k) (hmax : k ≤ 32) (i : Nat) :
    ncstart i k + k ≤ ncstart (i + 1) k :=
  calc ncstart i k + k = ncpos (i + 1) k := rfl
    _ ≤ ncplace (ncpos (i + 1) k) k := le_eplace .nonCrossing k _
    _ = ncstart (i + 1) k := ncplace_ncpos hk hmax (i + 1)

/-! ## Widths that fill a word (R125) -/

theorem mem_wordDivisors_iff {k : Nat} (hmax : k ≤ 32) : k ∈ [1, 2, 4, 8, 16, 32] ↔ k ∣ 32 := by
  have hall : ∀ k < 33, k ∈ [1, 2, 4, 8, 16, 32] ↔ k ∣ 32 := by decide
  exact hall k (by omega)

/-- Without padding the elements lie one after another. -/
theorem ncstart_of_dvd {k : Nat} (hdvd : k ∣ 32) (i : Nat) : ncstart i k = i * k :=
  calc ncstart i k = k * (32 / k) * (i / (32 / k)) + k * (i % (32 / k)) := by
        rw [Nat.mul_div_cancel' hdvd]; rfl
    _ = k * (32 / k * (i / (32 / k)) + i % (32 / k)) := by rw [Nat.mul_assoc, ← Nat.mul_add]
    _ = i * k := by rw [Nat.div_add_mod, Nat.mul_comm]

/-- The first element of the second word. -/
theorem ncstart_second_word {k : Nat} (hk : 1 ≤ k) (hmax : k ≤ 32) : ncstart (32 / k) k = 32 := by
  simp [ncstart, Nat.div_self (Nat.div_pos hmax hk)]

/-- The two layouts agree exactly when the elements fill a word: else the second word begins too late. -/
theorem ncstart_eq_mul_iff_dvd {k : Nat} (hk : 1 ≤ k) (hmax : k ≤ 32) :
    (∀ i, ncstart i k = i * k) ↔ k ∣ 32 := by
  refine ⟨fun hall => ?_, ncstart_of_dvd⟩
  rw [← ncstart_second_word hk hmax, hall]
  exact Nat.dvd_mul_left k (32 / k)

/-- The padding of a full word is what division by the width leaves over. -/
theorem padding_bounds {k : Nat} (hk : 1 ≤ k) (hdvd : ¬ k ∣ 32) :
    1 ≤ 32 - k * (32 / k) ∧ 32 - k * (32 / k) < k := by
  rw [← Nat.mod_eq_sub_mul_div]
  exact ⟨Nat.pos_of_ne_zero fun hzero => hdvd (Nat.dvd_of_mod_eq_zero hzero), Nat.mod_lt 32 hk⟩

/-- Settles O44: the four parts are the lemmas above, with "divides 32" for the list of widths. -/
theorem noncrossingLayoutInvariants : Obligations.NoncrossingLayoutInvariants := by
  intro k hk hmax
  have hlt (i : Nat) : ncstart i k < ncstart (i + 1) k :=
    (Nat.lt_add_of_pos_right hk).trans_le (ncstart_add_le_ncstart_succ hk hmax i)
  rw [mem_wordDivisors_iff hmax]
  exact ⟨fun i => ⟨ncstart_fits hk hmax i, (ncstart_div_mod hk hmax i).1⟩,
    fun i => ⟨ncstart_add_le_ncstart_succ hk hmax i, hlt i⟩,
    ncstart_eq_mul_iff_dvd hk hmax, padding_bounds hk⟩

/-! ## Size (R126) -/

theorem ceilDiv_zero {b : Nat} (hb : 0 < b) : ceilDiv 0 b = 0 := by
  unfold ceilDiv
  exact Nat.div_eq_of_lt (by omega)

theorem ceilDiv_succ {b : Nat} (hb : 0 < b) (a : Nat) : ceilDiv (a + 1) b = a / b + 1 := by
  rw [← Nat.add_div_right a hb, ceilDiv]
  congr 1
  omega

/-- The last word of the cursor is that of the last element, which does not straddle. -/
theorem ceilDiv_ncpos {k : Nat} (hk : 1 ≤ k) (hmax : k ≤ 32) (n : Nat) :
    ceilDiv (ncpos n k) 32 = ceilDiv n (32 / k) := by
  have hepw : 0 < 32 / k := Nat.div_pos hmax hk
  cases n with
  | zero => exact (ceilDiv_zero (by decide)).trans (ceilDiv_zero hepw).symm
  | succ n =>
    have hfits := ncstart_fits hk hmax n
    calc ceilDiv (ncpos (n + 1) k) 32 = ncstart n k / 32 + 1 := by
          simp only [ceilDiv, ncpos]; omega
      _ = n / (32 / k) + 1 := by rw [(ncstart_div_mod hk hmax n).1]
      _ = ceilDiv (n + 1) (32 / k) := (ceilDiv_succ hepw n).symm

/-- Each element takes at most a word. -/
theorem ncstart_le {k : Nat} (hk : 1 ≤ k) (hmax : k ≤ 32) (i : Nat) : ncstart i k ≤ 32 * i :=
  calc ncstart i k ≤ 32 * (32 / k * (i / (32 / k))) + 32 * (i % (32 / k)) :=
        Nat.add_le_add
          (Nat.mul_le_mul_left 32 (Nat.le_mul_of_pos_left _ (Nat.div_pos hmax hk)))
          (Nat.mul_le_mul_right _ hmax)
    _ = 32 * i := by rw [← Nat.mul_add, Nat.div_add_mod]

theorem ncpos_le {k : Nat} (hk : 1 ≤ k) (hmax : k ≤ 32) (n : Nat) : ncpos n k ≤ 32 * n := by
  cases n with
  | zero => exact le_rfl
  | succ n => exact Nat.add_le_add (ncstart_le hk hmax n) hmax

/-- Settles O45: the count of words and the two bounds, each for every count of elements. -/
theorem noncrossingSize : Obligations.NoncrossingSize := fun _ hk hmax n =>
  ⟨ceilDiv_ncpos hk hmax n, ncstart_le hk hmax n, ncpos_le hk hmax n⟩

end Sys2Proof.Machine
end

section
/-! The commands that build, adopt and read a structure: what each does when it passes its checks, and the error each
check gives when it is the first to fail (43_structure_commands.md R136 to R143; 60_exceptions.md R175 to R177). -/

namespace Sys2Proof.Machine

/-- The `SMAX` register holds the maximum with an operand below `2^64` (R29, R136). -/
theorem toNat_smax_scan (s : State) {v : Nat} (hv : v < 2 ^ 64) :
    (BitVec.ofNat 64 (max s.smax.toNat v)).toNat = max s.smax.toNat v :=
  Nat.mod_eq_of_lt (max_lt s.smax.isLt hv)

section
variable {s : State}

/-! ## Commands that complete -/

theorem exec_scan_of_legal (hphase : s.phase = .raw) {v : Nat} (hv : v < 2 ^ 64) :
    exec (.scan v) s = .next (({ s with
      smax := BitVec.ofNat 64 (max s.smax.toNat v), sany := true } : State).respond 0) := by
  have hfit : ¬((v : Int) ≥ 2 ^ Config.wmax) := not_le.mpr (by exact_mod_cast hv)
  rw [exec, execScan, if_neg (not_not.mpr hphase), if_neg (by omega), if_neg hfit, Int.toNat_natCast]

theorem exec_begin_of_legal (hphase : s.phase = .raw) (hlen : s.len = 0) {md : Mode} {k : Nat}
    (hk : k ≤ kMax md) : exec (.begin md k) s = .next ((s.startBuild md k).respond 0) := by
  rw [exec, execBegin, if_neg (not_not.mpr hphase), if_neg (not_not.mpr hlen), if_neg (by omega),
    if_neg (by omega), Int.toNat_natCast]

theorem exec_begina_of_legal (hphase : s.phase = .raw) (hlen : s.len = 0) {md : Mode}
    (hk : kderive s.sany s.smax.toNat ≤ kMax md) :
    exec (.begina md) s =
      .next ((s.startBuild md (kderive s.sany s.smax.toNat)).respond
        (BitVec.ofNat 128 (kderive s.sany s.smax.toNat))) := by
  have hwidth : ¬(md = .nonCrossing ∧ kderive s.sany s.smax.toNat > Config.ncKmax) := by
    rintro ⟨rfl, hgt⟩
    exact absurd hk (not_le.mpr hgt)
  rw [exec, execBegina, if_neg (not_not.mpr hphase), if_neg (not_not.mpr hlen), if_neg hwidth]

theorem exec_seal_of_build (hphase : s.phase = .build) :
    exec .sealBuild s = .next (({ s with phase := .sealed } : State).respond 0) := by
  rw [exec, execSeal, if_neg (not_not.mpr hphase)]

theorem exec_attach_of_legal (hphase : s.phase = .raw) {md : Mode} {k n : Nat} (hk : k ≤ kMax md)
    (hn : n < 2 ^ 32) (hzero : k = 0 → n = 0) :
    exec (.attach md k n) s = .next (({ s with
      mode := md, k := BitVec.ofNat 16 k, n := BitVec.ofNat 32 n,
      pos := BitVec.ofNat 64 (epos md k n), phase := .sealed } : State).respond 0) := by
  simp only [exec, execAttach, Int.toNat_natCast]
  rw [if_neg (not_not.mpr hphase), if_neg (by omega), if_neg (by omega), if_neg (by omega),
    if_neg (by omega)]

/-- `GET` of an index below `N` answers the element. -/
theorem exec_get_of_lt (hphase : s.phase = .sealed) {i : Nat} (hi : i < s.n.toNat) :
    exec (.get i) s = .next (s.respond (BitVec.ofNat 128 (s.element i))) := by
  rw [exec, execGet, if_neg (not_not.mpr hphase), if_neg (by omega), Int.toNat_natCast]

/-- `SBIT` of an index below `N` answers the element's start bit. -/
theorem exec_sbit_of_lt (hphase : s.phase = .sealed) {i : Nat} (hi : i < s.n.toNat) :
    exec (.sbit i) s = .next (s.respond (BitVec.ofNat 128 (s.elementStart i))) := by
  rw [exec, execSbit, if_neg (not_not.mpr hphase), if_neg (by omega), Int.toNat_natCast]

/-- The result field of the response holds every start bit (R28). -/
theorem State.toNat_elementStart_result (s : State) {i : Nat} (hi : i < s.n.toNat) :
    (BitVec.ofNat 128 (s.elementStart i)).toNat = s.elementStart i := by
  have hstart : s.elementStart i < 2 ^ 64 := estart_lt s.k.isLt (hi.trans s.n.isLt)
  exact Nat.mod_eq_of_lt (hstart.trans (by decide))

/-! ## `PUSH` in any state that passes its checks (R139) -/

/-- Within the capacity the cursor after a `PUSH` fits the `POS` register, invariants or not. -/
theorem State.pushable.toNat_pos {v : Nat} (hpush : s.pushable v) :
    (s.placeElement v).pos.toNat = s.pushStart + s.k.toNat := by
  have hend : s.pushStart + s.k.toNat ≤ 32 * s.cap.toNat :=
    ceilDiv_le_iff.mp hpush.wordsNeeded_le
  have hcap := s.cap.isLt
  rw [State.placeElement_pos, BitVec.toNat_ofNat, Nat.mod_eq_of_lt (by omega)]

/-- `PUSH` writes no register but `LEN`, `POS` and `N`. -/
theorem State.placeElement_frame (s : State) (v : Nat) :
    s.placeElement v = { s with
      len := (s.placeElement v).len, mem := (s.placeElement v).mem,
      pos := (s.placeElement v).pos, n := s.n + 1 } := by
  unfold State.placeElement State.pack State.extend
  split <;> rfl

end

/-- Settles O19: the one way through the checks of `SCAN`. -/
theorem scanFoldsMaximum : Obligations.ScanFoldsMaximum :=
  fun s _ hphase hv => ⟨_, toNat_smax_scan s hv, exec_scan_of_legal hphase hv⟩

/-- Settles O20: a legal width fits the `K` register. -/
theorem beginStartsBuild : Obligations.BeginStartsBuild := by
  intro s md k hphase hlen hk
  have hk : k ≤ kMax md := by cases md <;> exact hk
  exact ⟨_, toNat_width_of_le_kMax hk, exec_begin_of_legal hphase hlen hk⟩

/-- Settles O21: in the crossing layout the derived width is legal because `SMAX` has 64 bits. -/
theorem beginaStartsBuild : Obligations.BeginaStartsBuild := by
  intro s md hphase hlen hk
  have hmax : kderive s.sany s.smax.toNat ≤ 64 := kderive_le s.smax.isLt
  have hk : kderive s.sany s.smax.toNat ≤ kMax md := by
    cases md with
    | crossing => exact hmax
    | nonCrossing => exact hk rfl
  exact ⟨_, _, toNat_width_of_le_kMax hk, Nat.mod_eq_of_lt (by omega),
    exec_begina_of_legal hphase hlen hk⟩

/-- Settles O22: the fields a `PUSH` writes, and the stream after it, as `placeElement` has them. -/
theorem pushPlacesElement : Obligations.PushPlacesElement := by
  intro s v hmem hpush
  have hpos := hpush.toNat_pos
  have hneed := wordsNeeded_lt_of_le_cap hpush.wordsNeeded_le
  refine ⟨(s.placeElement v).len, (s.placeElement v).mem, (s.placeElement v).pos, ?_, hpos, ?_,
    State.wf_pack hmem _ _ _, fun b => ?_⟩
  · rw [← s.placeElement_frame v]
    exact exec_push_of_pushable hpush
  · rw [hpos]
    exact State.len_pack s _ v _ hneed
  · rw [hpos]
    exact (State.bit_congr rfl rfl b).trans (State.bit_placeElement hmem hpush b)

/-- Settles O23: the one way through the check of `SEAL`. -/
theorem sealEndsBuild : Obligations.SealEndsBuild :=
  fun _ hphase => exec_seal_of_build hphase

/-- Settles O24: a legal width, a count below `2^32` and the cursor after that many elements fit their registers. -/
theorem attachAdoptsArray : Obligations.AttachAdoptsArray := by
  intro s md k n hphase hk hn hzero
  have hk : k ≤ kMax md := by cases md <;> exact hk
  exact ⟨BitVec.ofNat 16 k, BitVec.ofNat 32 n, BitVec.ofNat 64 (epos md k n),
    toNat_width_of_le_kMax hk, Nat.mod_eq_of_lt hn,
    Nat.mod_eq_of_lt (epos_lt (hk.trans (kMax_le md)) hn), exec_attach_of_legal hphase hk hn hzero⟩

/-- Settles O25: the element is the result of the chunk loop, which is the sum. -/
theorem getAnswersElement : Obligations.GetAnswersElement := by
  intro s i hphase hi hk
  exact ⟨_, exec_get_of_lt hphase hi,
    (s.toNat_unpack_result _ hk).trans (s.unpack_eq_unpackBits _ _)⟩

/-- Settles O26: the closed form of each layout. -/
theorem sbitAnswersStartBit : Obligations.SbitAnswersStartBit := by
  intro s i hphase hi
  refine ⟨_, exec_sbit_of_lt hphase hi, (s.toNat_elementStart_result hi).trans ?_⟩
  unfold State.elementStart
  cases s.mode <;> rfl

/-- Settles O27: `GET` unpacks `K` bits at the start bit that `SBIT` answers. -/
theorem getEqualsUnpackAtSbit : Obligations.GetEqualsUnpackAtSbit := by
  intro s i hphase hi hk
  refine ⟨_, exec_sbit_of_lt hphase hi, ?_⟩
  rw [s.toNat_elementStart_result hi, exec_get_of_lt hphase hi,
    exec_unpack_of_legal (.inr hphase) hk, State.element]

/-! ## Errors -/

section
variable {s : State}

theorem exec_scan_errors (hphase : s.phase = .raw) (v : Int) :
    (v < 0 → exec (.scan v) s = .next (s.failWith .negValue)) ∧
    (2 ^ 64 ≤ v → exec (.scan v) s = .next (s.failWith .widthMax)) := by
  refine ⟨fun hv => ?_, fun hv => ?_⟩
  · rw [exec, execScan, if_neg (not_not.mpr hphase), if_pos hv]
  · rw [exec, execScan, if_neg (not_not.mpr hphase), if_neg (by omega), if_pos hv]

theorem exec_begin_errors (hphase : s.phase = .raw) (hlen : s.len = 0) (md : Mode) (k : Int) :
    (k < 0 → exec (.begin md k) s = .next (s.failWith .negWidth)) ∧
    ((kMax md : Int) < k → exec (.begin md k) s = .next (s.failWith .widthMax)) := by
  refine ⟨fun hk => ?_, fun hk => ?_⟩
  · rw [exec, execBegin, if_neg (not_not.mpr hphase), if_neg (not_not.mpr hlen), if_pos hk]
  · rw [exec, execBegin, if_neg (not_not.mpr hphase), if_neg (not_not.mpr hlen),
      if_neg (by omega), if_pos hk]

theorem exec_begina_of_wide (hphase : s.phase = .raw) (hlen : s.len = 0)
    (hk : 32 < kderive s.sany s.smax.toNat) :
    exec (.begina .nonCrossing) s = .next (s.failWith .widthMax) := by
  rw [exec, execBegina, if_neg (not_not.mpr hphase), if_neg (not_not.mpr hlen), if_pos ⟨rfl, hk⟩]

/-- The errors of `PUSH` in BUILD, each under the conditions in which its check is the first to fail. -/
theorem exec_push_errors (hphase : s.phase = .build) (v : Int) :
    (v < 0 → exec (.push v) s = .next (s.failBuild .negValue)) ∧
    (0 ≤ v → s.k = 0 → exec (.push v) s = .next (s.failBuild .zeroK)) ∧
    (s.k ≠ 0 → 2 ^ s.k.toNat ≤ v → exec (.push v) s = .next (s.failBuild .noFit)) ∧
    (0 ≤ v → s.k ≠ 0 → v < 2 ^ s.k.toNat →
      (s.n.toNat = 2 ^ 32 - 1 → exec (.push v) s = .next (s.failBuild .capCount)) ∧
      (s.n.toNat < 2 ^ 32 - 1 → s.cap.toNat < wordsNeeded s.pushStart s.k.toNat →
        exec (.push v) s = .next (s.failBuild .capWords))) := by
  simp only [exec, execPush]
  rw [if_neg (not_not.mpr hphase)]
  refine ⟨fun hv => if_pos hv, fun hv hk => ?_, fun hk hfit => ?_, fun hv hk hfit => ?_⟩
  · rw [if_neg (not_lt.mpr hv), if_pos hk]
  · have hv : 0 ≤ v := le_trans (by positivity) hfit
    rw [if_neg (not_lt.mpr hv), if_neg hk, if_pos hfit]
  · rw [if_neg (not_lt.mpr hv), if_neg hk, if_neg (not_le.mpr hfit)]
    refine ⟨fun hcount => if_pos hcount, fun hcount hcap => ?_⟩
    rw [if_neg hcount.ne, if_pos hcap]

/-- The errors of `ATTACH` in RAW, in the same way. -/
theorem exec_attach_errors (hphase : s.phase = .raw) (md : Mode) (k n : Int) :
    (k < 0 → exec (.attach md k n) s = .next (s.failWith .negWidth)) ∧
    ((kMax md : Int) < k → exec (.attach md k n) s = .next (s.failWith .widthMax)) ∧
    (0 ≤ k → k ≤ kMax md →
      (n < 0 ∨ 2 ^ 32 ≤ n → exec (.attach md k n) s = .next (s.failWith .count)) ∧
      (k = 0 → 0 < n → n < 2 ^ 32 → exec (.attach md k n) s = .next (s.failWith .zeroK))) := by
  simp only [exec, execAttach]
  rw [if_neg (not_not.mpr hphase)]
  refine ⟨fun hk => if_pos hk, fun hk => ?_, fun hneg hmax => ?_⟩
  · rw [if_neg (by omega), if_pos hk]
  · rw [if_neg (not_lt.mpr hneg), if_neg (not_lt.mpr hmax)]
    refine ⟨fun hn => if_pos hn, fun hzero hpos hn => ?_⟩
    rw [if_neg (by omega), if_pos ⟨hzero, hpos⟩]

/-- `GET` and `SBIT` of an index outside `[0, N)`. -/
theorem exec_get_sbit_of_outside (hphase : s.phase = .sealed) {i : Int}
    (hi : i < 0 ∨ (s.n.toNat : Int) ≤ i) :
    exec (.get i) s = .next (s.failWith .range) ∧ exec (.sbit i) s = .next (s.failWith .range) := by
  constructor
  · rw [exec, execGet, if_neg (not_not.mpr hphase), if_pos hi]
  · rw [exec, execSbit, if_neg (not_not.mpr hphase), if_pos hi]

end

/-- Settles O29: the errors of the three commands; the check of `LEN` comes before those of the width. -/
theorem buildStartErrors : Obligations.BuildStartErrors := by
  intro s md k v hphase
  obtain ⟨hneg, hwide⟩ := exec_scan_errors hphase v
  refine ⟨hneg, hwide, fun hlen => ⟨exec_begin_of_notEmpty hphase hlen md k,
    exec_begina_of_notEmpty hphase hlen md⟩, fun hlen => ?_⟩
  obtain ⟨hneg, hwide⟩ := exec_begin_errors hphase hlen md k
  exact ⟨hneg, by cases md <;> exact hwide, exec_begina_of_wide hphase hlen⟩

/-- Settles O30: `failBuild` is the error entry with the phase FAILED. -/
theorem pushErrorsKillBuild : Obligations.PushErrorsKillBuild :=
  fun _ v hphase => exec_push_errors hphase v

/-- Settles O31: the errors of `ATTACH`, and the range check that `GET` and `SBIT` share. -/
theorem structureErrors : Obligations.StructureErrors := by
  intro s md k n i
  refine ⟨fun hphase => ?_, fun hphase hi => exec_get_sbit_of_outside hphase hi⟩
  have herrors := exec_attach_errors hphase md k n
  cases md <;> exact herrors

end Sys2Proof.Machine
end

section
/-! Commands the host issues at the port, run one after another (00_scope.md R12; 70_reset_and_hazards.md R194, R197,
R199). -/

namespace Sys2Proof.Machine

/-! ## No command reads the port (R199) -/

theorem State.extend_withPort (s : State) (port : List HostAction) (need : Nat) :
    ({ s with port := port } : State).extend need = { s.extend need with port := port } := by
  unfold State.extend
  split <;> rfl

theorem State.pack_withPort (s : State) (port : List HostAction) (a v w : Nat) :
    ({ s with port := port } : State).pack a v w = { s.pack a v w with port := port } := by
  simp only [State.pack, State.extend_withPort]

theorem State.unpack_withPort (s : State) (port : List HostAction) (a w : Nat) :
    ({ s with port := port } : State).unpack a w = s.unpack a w :=
  State.unpack_congr (s := { s with port := port }) (t := s) rfl rfl a w

/-- The outcome with another list of actions waiting at the port. -/
def outcomeWithPort (port : List HostAction) :
    Host.Outcome State Fault Refusal → Host.Outcome State Fault Refusal
  | .next t => .next { t with port := port }
  | .fault r => .fault r
  | .refused r => .refused r

/-- A command takes the same way through its checks whatever waits at the port: each check and each effect with the
other port is, by definition, the one without it. -/
theorem exec_withPort (i : Instr) (s : State) (port : List HostAction) :
    exec i { s with port := port } = outcomeWithPort port (exec i s) := by
  cases i with
  | nop | clear | rdcsr => rfl
  | _ =>
    simp only [exec, execPack, execUnpack, execScan, execBegin, execBegina, execPush, execSeal,
      execAttach, execGet, execSbit, State.element, State.placeElement, State.pack_withPort,
      State.unpack_withPort, apply_ite (outcomeWithPort port)]
    rfl

theorem exec_withPort_of_next {i : Instr} {s t : State} (h : exec i s = .next t)
    (port : List HostAction) : exec i { s with port := port } = .next { t with port := port } := by
  rw [exec_withPort, h, outcomeWithPort]

/-! ## Runs of commands -/

/-- The commands of the list have encodings, and one after another take the block from the first state to the second. -/
inductive Runs : List Instr → State → State → Prop
  | nil {s : State} : Runs [] s s
  | cons {i : Instr} {is : List Instr} {s t u : State} (hwf : i.wf = true)
      (hexec : exec i s = .next t) (hrest : Runs is t u) : Runs (i :: is) s u

theorem Runs.single {i : Instr} {s t : State} (hwf : i.wf = true) (hexec : exec i s = .next t) :
    Runs [i] s t := .cons hwf hexec .nil

theorem Runs.append {is js : List Instr} {s t u : State} (h : Runs is s t) (h' : Runs js t u) :
    Runs (is ++ js) s u := by
  induction h with
  | nil => exact h'
  | cons hwf hexec _ ih => exact .cons hwf hexec (ih h')

theorem run_succ_of_next {M : Host.Core} {s t : M.State} (h : M.step s = .next t) (n : Nat) :
    M.run (n + 1) s = M.run n t := by
  rw [Host.Core.run, h]

theorem run_succ_of_step {s t : State} (h : step s = .next t) (n : Nat) :
    Sys2Proof.core.run (n + 1) s = Sys2Proof.core.run n t :=
  run_succ_of_next (M := Sys2Proof.core) (s := s) (t := t) h n

/-- The first command issued is the next the block runs, with the others waiting behind it. -/
theorem step_issue_cons {i : Instr} {s t : State} (hwf : i.wf = true) (hexec : exec i s = .next t)
    (is : List Instr) : step (s.issue (i :: is)) = .next (t.issue is) :=
  (stepRunsDecodedCommand _ _ _ i rfl (decodeAfterEncode i hwf)).trans (exec_withPort_of_next hexec _)

/-- Issuing a list of commands runs them, and then the port is empty. -/
theorem Runs.run_issue {is : List Instr} {s t : State} (h : Runs is s t) :
    Sys2Proof.core.run is.length (s.issue is) = .next { t with port := [] } := by
  induction h with
  | nil => rfl
  | cons hwf hexec _ ih =>
    exact (run_succ_of_step (step_issue_cons hwf hexec _) _).trans ih

end Sys2Proof.Machine
end

section
/-! A list given to the block is built and answered: the runs of `FROM_LIST` and `FROM_LIST_K`
(30_encoding.md R84; 43_structure_commands.md R136 to R142, R145). -/

namespace Sys2Proof.Machine

/-! ## Operands that have an encoding (R72) -/

theorem fitsSigned_natCast {b v : Nat} (h : v < 2 ^ (b - 1)) : fitsSigned b v = true := by
  have hlow : -(2 ^ (b - 1) : Int) ≤ v :=
    (neg_nonpos.mpr (by positivity)).trans (Int.natCast_nonneg v)
  have hhigh : (v : Int) < 2 ^ (b - 1) := by exact_mod_cast h
  simp only [fitsSigned, hlow, hhigh, decide_true, Bool.and_self]

/-- Every value of up to 64 bits fits the `V` field. -/
theorem fitsV_natCast {v : Nat} (h : v < 2 ^ 64) : fitsV v = true :=
  fitsSigned_natCast (h.trans (by decide))

/-- Every width legal for a layout fits the `W` field. -/
theorem fitsW_natCast {md : Mode} {k : Nat} (hk : k ≤ kMax md) : fitsW k = true :=
  fitsSigned_natCast ((hk.trans (kMax_le md)).trans_lt (by decide))

/-- The values of a list as the operands of commands. -/
def operands (vs : List Nat) : List Int := vs.map fun (v : Nat) => (v : Int)

/-! ## Before the build: `CLEAR` and the `SCAN`s (R136, R160) -/

/-- The block is as after `CLEAR`, but for the scan accumulators. A block without capacity (R7 excludes it) has no
invariants to meet, and no element is pushed to it. -/
structure State.Unbuilt (s : State) : Prop where
  phase : s.phase = .raw
  empty : s.len = 0
  noError : s.noError
  inv : s.cap ≠ 0 → s.Inv

theorem State.unbuilt_clearAll (s : State) (r : BitVec 128) : (s.clearAll.respond r).Unbuilt where
  phase := rfl
  empty := rfl
  noError := rfl
  inv hcap := { resetWith_inv (cap := s.cap) hcap with }

theorem State.Unbuilt.scan {s : State} (h : s.Unbuilt) (m : BitVec 64) (r : BitVec 128) :
    (State.respond { s with smax := m, sany := true } r).Unbuilt where
  phase := h.phase
  empty := h.empty
  noError := h.noError
  inv hcap := ((h.inv hcap).scan m).respond r

/-- Scanning a list makes `SMAX` its largest value, if that is above what was scanned before, and `SANY` tells that
there was one. -/
theorem State.Unbuilt.scans {s : State} (h : s.Unbuilt) {vs : List Nat}
    (hfit : ∀ v ∈ vs, v < 2 ^ 64) :
    ∃ t, Runs ((operands vs).map .scan) s t ∧ t.Unbuilt ∧ t.cap = s.cap ∧
      t.smax.toNat = max s.smax.toNat (vs.foldr max 0) ∧ t.sany = (s.sany || !vs.isEmpty) := by
  induction vs generalizing s with
  | nil => exact ⟨s, .nil, h, rfl, (Nat.max_zero _).symm, (Bool.or_false _).symm⟩
  | cons v vs ih =>
    obtain ⟨hv, hvs⟩ := List.forall_mem_cons.mp hfit
    obtain ⟨t, hrun, ht, hcap, hsmax, hsany⟩ := ih (h.scan _ 0) hvs
    refine ⟨t, .cons (fitsV_natCast hv) (exec_scan_of_legal h.phase hv) hrun, ht, hcap, ?_, ?_⟩
    · rw [hsmax, State.respond_smax, toNat_smax_scan s hv, max_assoc, List.foldr_cons]
    · rw [hsany, State.respond_sany, Bool.true_or, List.isEmpty_cons, Bool.not_false, Bool.or_true]

/-! ## The build (R137 to R139) -/

/-- The structure in the block, finished or not, has the given layout and width and the values of the list as its
elements, and no command has failed. -/
structure State.Holds (s : State) (md : Mode) (k : Nat) (vs : List Nat) : Prop where
  mode : s.mode = md
  width : s.k.toNat = k
  count : s.n.toNat = vs.length
  noError : s.noError
  element : ∀ i v, vs[i]? = some v → s.element i = v

/-- The phase, the port and the last response are no part of what a structure holds. -/
theorem State.Holds.update {s : State} {md : Mode} {k : Nat} {vs : List Nat} (h : s.Holds md k vs)
    (phase : Phase) (port : List HostAction) (resp : Option Packet) :
    ({ s with phase := phase, port := port, resp := resp } : State).Holds md k vs where
  mode := h.mode
  width := h.width
  count := h.count
  noError := h.noError
  element i v hi := Eq.trans
    (State.unpack_congr (s := { s with phase := phase, port := port, resp := resp }) (t := s) rfl rfl
      _ _) (h.element i v hi)

/-- A build whose elements so far are the values of the list. -/
structure State.Building (s : State) (md : Mode) (k : Nat) (vs : List Nat) : Prop where
  phase : s.phase = .build
  inv : s.cap ≠ 0 → s.Inv
  holds : s.Holds md k vs

theorem State.Unbuilt.startBuild {s : State} (h : s.Unbuilt) {md : Mode} {k : Nat}
    (hk : k ≤ kMax md) (r : BitVec 128) : ((s.startBuild md k).respond r).Building md k [] where
  phase := rfl
  inv hcap := ((h.inv hcap).startBuild h.empty hk).respond r
  holds := ⟨rfl, toNat_width_of_le_kMax hk, rfl, h.noError, by simp⟩

section
variable {s : State} {md : Mode} {k v : Nat} {vs : List Nat}

/-- An element takes at least one word, so that a block whose capacity holds one has a capacity. -/
theorem cap_ne_zero_of_epos_le {cap : BitVec 32} {n : Nat} (hk : 1 ≤ k)
    (hcap : ceilDiv (epos md k (n + 1)) 32 ≤ cap.toNat) : cap ≠ 0 := by
  rintro rfl
  have hzero : epos md k (n + 1) ≤ 0 := ceilDiv_le_iff.mp hcap
  rw [epos_succ] at hzero
  omega

/-- A value that fits the width passes every check of `PUSH` while the count and the capacity allow one element more. -/
theorem State.Building.pushable (h : s.Building md k vs) (hk : 1 ≤ k) (hv : v < 2 ^ k)
    (hcount : vs.length < 2 ^ 32 - 1)
    (hcap : ceilDiv (epos md k (vs.length + 1)) 32 ≤ s.cap.toNat) : s.pushable v := by
  have hinv := h.inv (cap_ne_zero_of_epos_le hk hcap)
  obtain ⟨rfl, rfl, hn, -, -⟩ := h.holds
  have hzero : s.k ≠ 0 := by
    rintro hzero
    simp [hzero] at hk
  refine ⟨h.phase, hzero, hv, hn ▸ hcount, ?_⟩
  rwa [hinv.pos_eq, eplace_epos hk hinv.k_legal, hn, ← epos_succ]

/-- A `PUSH` appends its value to the list. -/
theorem State.Building.placeElement (h : s.Building md k vs) (hinv : s.Inv) (hpush : s.pushable v)
    (r : BitVec 128) : ((s.placeElement v).respond r).Building md k (vs ++ [v]) where
  phase := by simpa using h.phase
  inv _ := (hinv.placeElement hpush).respond r
  holds :=
    { mode := by simpa using h.holds.mode
      width := by simpa using h.holds.width
      count := by
        rw [State.respond_n, hpush.toNat_n, h.holds.count, List.length_append, List.length_singleton]
      noError := (State.placeElement_err s v).trans h.holds.noError
      element := fun i w hw => by
        rw [State.element_respond]
        rcases Nat.lt_or_ge i vs.length with hold | hnew
        · rw [List.getElem?_append_left hold] at hw
          rw [hinv.element_placeElement_of_lt hpush (h.holds.count.symm ▸ hold)]
          exact h.holds.element i w hw
        · obtain ⟨hlt, -⟩ := List.getElem?_eq_some_iff.mp hw
          obtain rfl : i = vs.length := by
            rw [List.length_append, List.length_singleton] at hlt
            omega
          rw [List.getElem?_concat_length, Option.some.injEq] at hw
          rw [← hw, ← h.holds.count]
          exact hinv.element_placeElement_self hpush }

/-- Pushing a list appends it, as long as the count and the capacity allow all of it. -/
theorem State.Building.pushes (h : s.Building md k vs) (hmax : k ≤ kMax md) {ws : List Nat}
    (hpos : ws ≠ [] → 1 ≤ k) (hfit : ∀ w ∈ ws, w < 2 ^ k) (hcount : vs.length + ws.length < 2 ^ 32)
    (hcap : ceilDiv (epos md k (vs.length + ws.length)) 32 ≤ s.cap.toNat) :
    ∃ t, Runs ((operands ws).map .push) s t ∧ t.Building md k (vs ++ ws) := by
  induction ws generalizing s vs with
  | nil => exact ⟨s, .nil, by rwa [List.append_nil]⟩
  | cons w ws ih =>
    have hk := hpos (List.cons_ne_nil w ws)
    obtain ⟨hw, hws⟩ := List.forall_mem_cons.mp hfit
    rw [List.length_cons, Nat.add_comm ws.length, ← Nat.add_assoc] at hcount hcap
    have hcap_one : ceilDiv (epos md k (vs.length + 1)) 32 ≤ s.cap.toNat :=
      (ceilDiv_mono (monotone_nat_of_le_succ (epos_le_epos_succ hk hmax)
        (Nat.le_add_right _ _))).trans hcap
    have hpush := h.pushable hk hw (by omega) hcap_one
    have hnext := h.placeElement (h.inv (cap_ne_zero_of_epos_le hk hcap_one)) hpush 0
    obtain ⟨t, hrun, ht⟩ := ih hnext (fun _ => hk) hws (by simpa using hcount) (by simpa using hcap)
    have hwf : fitsV w = true :=
      fitsV_natCast (hw.trans_le (Nat.pow_le_pow_right (by decide) (hmax.trans (kMax_le md))))
    exact ⟨t, .cons hwf (exec_push_of_pushable hpush) hrun, by simpa using ht⟩

/-- Pushing a list in a build that has no element, and then `SEAL`: the elements are those of the list. -/
theorem State.Building.pushes_seal (h : s.Building md k []) (hmax : k ≤ kMax md)
    (hpos : vs ≠ [] → 1 ≤ k) (hfit : ∀ v ∈ vs, v < 2 ^ k) (hcount : vs.length < 2 ^ 32)
    (hcap : ceilDiv (epos md k vs.length) 32 ≤ s.cap.toNat) :
    ∃ t, Runs ((operands vs).map Instr.push ++ [Instr.sealBuild]) s t ∧ t.phase = .sealed ∧
      t.Holds md k vs := by
  obtain ⟨t, hrun, ht⟩ := h.pushes hmax hpos hfit (by simpa using hcount) (by simpa using hcap)
  exact ⟨_, hrun.append (.single rfl (exec_seal_of_build ht.phase)), rfl, ht.holds.update _ _ _⟩

/-- `GET` answers the values of the list a structure holds. -/
theorem State.Holds.exec_get (h : s.Holds md k vs) (hphase : s.phase = .sealed) {i : Nat}
    (hi : vs[i]? = some v) : exec (.get i) s = .next (s.respond (BitVec.ofNat 128 v)) := by
  obtain ⟨hlt, -⟩ := List.getElem?_eq_some_iff.mp hi
  rw [exec_get_of_lt hphase (h.count.symm ▸ hlt), h.element i v hi]

end

/-! ## The round trips (R145) -/

/-- What both round trips say of the block after the commands, given where the commands lead. -/
theorem exists_run_of_holds {is : List Instr} {s t : State} {md : Mode} {k : Nat} {vs : List Nat}
    (hrun : Runs is s t) (hphase : t.phase = .sealed) (h : t.Holds md k vs) :
    ∃ t : State, Sys2Proof.core.run is.length (s.issue is) = .next t ∧
      t.phase = .sealed ∧ t.mode = md ∧ t.n.toNat = vs.length ∧ t.k.toNat = k ∧ t.noError ∧
      ∀ (i v : Nat), vs[i]? = some v →
        exec (.get i) t = .next (t.respond (BitVec.ofNat 128 v)) := by
  have hafter := h.update t.phase [] t.resp
  exact ⟨_, hrun.run_issue, hphase, hafter.mode, hafter.count, hafter.width, hafter.noError,
    fun i v hi => hafter.exec_get hphase hi⟩

/-- `CLEAR` completes in every state (R160). -/
theorem runs_clear (s : State) : Runs [.clear] s (s.clearAll.respond 0) := .single rfl rfl

/-- Settles O58: `CLEAR` and `BEGIN` lead to a build without elements, the `PUSH`es and `SEAL` from there to the list. -/
theorem roundTripSuppliedWidth : Obligations.RoundTripSuppliedWidth := by
  intro s md k vs hmax hpos hfit hcount hcap is
  have hmax : k ≤ kMax md := by cases md <;> exact hmax
  have hclear := s.unbuilt_clearAll 0
  obtain ⟨t, hrun, hphase, ht⟩ :=
    (hclear.startBuild hmax 0).pushes_seal hmax hpos hfit hcount hcap
  have hbegin := exec_begin_of_legal hclear.phase hclear.empty hmax
  exact exists_run_of_holds ((runs_clear s).append (.cons (fitsW_natCast hmax) hbegin hrun)) hphase ht

/-- The derived width of a list whose values fit the layout: it is legal, it is positive if there is a value, and every
value fits it (R111). -/
theorem kderive_list {md : Mode} {vs : List Nat} (hfit : ∀ v ∈ vs, v < 2 ^ kMax md) :
    kderive (!vs.isEmpty) (vs.foldr max 0) ≤ kMax md ∧
      (vs ≠ [] → 1 ≤ kderive (!vs.isEmpty) (vs.foldr max 0)) ∧
      ∀ v ∈ vs, v < 2 ^ kderive (!vs.isEmpty) (vs.foldr max 0) := by
  cases vs with
  | nil => exact ⟨Nat.zero_le _, fun h => absurd rfl h, by simp⟩
  | cons v vs =>
    have hlargest : (v :: vs).foldr max 0 < 2 ^ kMax md := by
      have hle : (v :: vs).foldr max ⊥ ≤ 2 ^ kMax md - 1 :=
        List.max_le_of_forall_le _ _ fun w hw => Nat.le_sub_one_of_lt (hfit w hw)
      exact Nat.lt_of_le_sub_one (Nat.two_pow_pos _) hle
    have hpos : 1 ≤ kMax md := by cases md <;> decide
    obtain ⟨hone, hholds⟩ := kderive_true_le_iff.mp (le_refl (kderive true ((v :: vs).foldr max 0)))
    exact ⟨kderive_true_le_iff.mpr ⟨hpos, hlargest⟩, fun _ => hone,
      fun w hw => (List.le_max_of_le hw le_rfl).trans_lt hholds⟩

theorem fromList_operands (md : Mode) (vs : List Nat) :
    fromList md (operands vs) = [Instr.clear] ++ (operands vs).map Instr.scan ++
      Instr.begina md :: ((operands vs).map Instr.push ++ [Instr.sealBuild]) := by
  simp [fromList]

/-- Settles O57: `CLEAR`, the `SCAN`s and `BEGINA` lead to a build of the derived width, and from there as in O58. -/
theorem roundTripDerivedWidth : Obligations.RoundTripDerivedWidth := by
  intro s md vs hfit hcount hcap is
  have hfit : ∀ v ∈ vs, v < 2 ^ kMax md := by cases md <;> exact hfit
  obtain ⟨hmax, hpos, hholds⟩ := kderive_list hfit
  obtain ⟨u, hscans, hu, hucap, hsmax, hsany⟩ := (s.unbuilt_clearAll 0).scans fun v hv =>
    (hfit v hv).trans_le (Nat.pow_le_pow_right (by decide) (kMax_le md))
  have hwidth : kderive u.sany u.smax.toNat = kderive (!vs.isEmpty) (vs.foldr max 0) := by
    rw [hsmax, hsany]
    simp
  rw [← hwidth] at hmax hpos hholds hcap ⊢
  obtain ⟨t, hrun, hphase, ht⟩ :=
    (hu.startBuild hmax _).pushes_seal hmax hpos hholds hcount (by simpa [hucap] using hcap)
  have hbegina := exec_begina_of_legal hu.phase hu.empty hmax
  have hall := ((runs_clear s).append hscans).append (.cons rfl hbegina hrun)
  rw [← fromList_operands] at hall
  exact exists_run_of_holds hall hphase ht

end Sys2Proof.Machine
end

section
/-! A structure given back to a cleared block word by word: the run of `RELOAD` (30_encoding.md R84;
43_structure_commands.md R141, R146). -/

namespace Sys2Proof.Machine

/-- Every number of up to 32 bits fits the `A` field. -/
theorem fitsA_natCast {n : Nat} (h : n < 2 ^ 63) : fitsA n = true :=
  fitsSigned_natCast h

/-! ## Loading words into a cleared block -/

theorem State.packed_frame (s : State) (a v w : Nat) : s.packed a v w =
    { s with len := (s.packed a v w).len, mem := (s.packed a v w).mem } :=
  s.packed_withArray a v w _ _

/-- States that differ in the word array alone are the same with any other array. -/
theorem State.withArray_of_frame {s t : State} {len : BitVec 32} {mem : Memory}
    (h : ({ s with len := len, mem := mem } : State) = t) (len' : BitVec 32) (mem' : Memory) :
    ({ s with len := len', mem := mem' } : State) = { t with len := len', mem := mem' } := by
  rw [← h]

/-- The block is as after `CLEAR`, but for a word array that holds the first `m` words of `s`. -/
structure State.Loaded (s : State) (m : Nat) (u : State) : Prop where
  inv : u.Inv
  frame : { s.clearAll.respond 0 with len := u.len, mem := u.mem } = u
  len : u.len.toNat = m
  bits : ∀ b, u.bit b = (decide (b < 32 * m) && s.bit b)

theorem State.Inv.loaded_zero {s : State} (hinv : s.Inv) : s.Loaded 0 (s.clearAll.respond 0) where
  inv := hinv.clearAll.respond 0
  frame := rfl
  len := rfl
  bits b := by simpa using State.bit_of_len_zero rfl b

section
variable {s u : State} {m : Nat}

theorem State.Loaded.phase (h : s.Loaded m u) : u.phase = .raw := by
  rw [← h.frame]
  rfl

theorem State.Loaded.cap (h : s.Loaded m u) : u.cap = s.cap := by
  rw [← h.frame]
  rfl

/-- The next word of an array that the capacity holds passes every check of `PACK`. -/
theorem State.Loaded.packable (h : s.Loaded m u) (hm : m < s.cap.toNat) (w : Word) :
    u.packable (32 * m) 32 w.toNat := by
  refine ⟨h.phase, by decide, w.isLt, fun _ => ?_⟩
  rw [h.cap, ceilDiv_le_iff]
  omega

/-- A `PACK` of the next word loads it. -/
theorem State.Loaded.packed (h : s.Loaded m u) (hm : m < s.cap.toNat) :
    s.Loaded (m + 1) ((u.packed (32 * m) (s.word m).toNat 32).respond 0) := by
  have hpack := h.packable hm (s.word m)
  refine ⟨(h.inv.packed hpack).respond 0, ?_, ?_, fun b => ?_⟩
  · exact congrArg (State.respond · 0)
      ((State.withArray_of_frame h.frame _ _).trans (u.packed_frame _ _ _).symm)
  · rw [State.respond_len, State.len_packed hpack, h.len, if_neg (by decide), wordsNeeded, ceilDiv]
    omega
  · rw [State.bit_respond, State.bit_packed h.inv.mem_wf hpack, h.bits]
    by_cases hword : 32 * m ≤ b ∧ b < 32 * m + 32
    · have hdiv : b / 32 = m := by omega
      have hmod : b % 32 = b - 32 * m := by omega
      have hin : b < 32 * (m + 1) := by omega
      rw [if_pos hword, BitVec.testBit_toNat, s.bit_eq_word, hdiv, hmod, decide_eq_true hin,
        Bool.true_and]
    · have hin : b < 32 * (m + 1) ↔ b < 32 * m := by omega
      rw [if_neg hword, decide_eq_decide.mpr hin]

/-- The `PACK`s of the words from number `m` on load them one after another. -/
theorem State.Loaded.loadWords (h : s.Loaded m u) {n : Nat} (hn : m + n ≤ s.cap.toNat) :
    ∃ t, Runs (loadWordsFrom m ((List.range' m n).map s.word)) u t ∧ s.Loaded (m + n) t := by
  induction n generalizing m u with
  | zero => exact ⟨u, .nil, h⟩
  | succ n ih =>
    have hm : m < s.cap.toNat := by omega
    have hcap := s.cap.isLt
    obtain ⟨t, hrun, ht⟩ := ih (h.packed hm) (by omega)
    have hwf : (Instr.pack 32 (32 * m) (s.word m).toNat).wf = true := by
      simp only [Instr.wf, Bool.and_eq_true]
      exact ⟨⟨by decide, fitsA_natCast (n := 32 * m) (by omega)⟩, fitsV_natCast (by omega)⟩
    refine ⟨t, .cons hwf (exec_pack_of_packable (h.packable hm (s.word m))) hrun, ?_⟩
    rwa [Nat.add_right_comm] at ht

end

theorem State.Inv.zero_width {s : State} (hinv : s.Inv) (hk : s.k.toNat = 0) : s.n.toNat = 0 := by
  rw [hinv.zero_k (BitVec.eq_of_toNat_eq hk)]
  rfl

/-- The scan accumulators and the first error are no part of a sealed structure. -/
theorem State.Inv.forgetScan {s : State} (hinv : s.Inv) (hsealed : s.phase = .sealed) :
    ({ s with smax := 0, sany := false, err := 0 } : State).Inv :=
  { hinv with
    smax_zero := fun _ => rfl
    err_code := .inl rfl
    failed_err := by simp [hsealed] }

/-- Adopting the words of a sealed structure, with its layout, width and count, gives the structure: the registers are
as they were, the cursor by the invariant, and the stream is the same. -/
theorem State.Inv.attach_loaded {s u : State} (hinv : s.Inv) (hsealed : s.phase = .sealed)
    (hu : s.Loaded s.len.toNat u) :
    State.respond { u with
      mode := s.mode, k := BitVec.ofNat 16 s.k.toNat, n := BitVec.ofNat 32 s.n.toNat,
      pos := BitVec.ofNat 64 (epos s.mode s.k.toNat s.n.toNat), phase := .sealed } 0 =
    State.respond { s with smax := 0, sany := false, err := 0 } 0 := by
  have hadopted := hu.inv.attach hinv.k_legal s.n.isLt hinv.zero_width
  refine (hadopted.respond 0).eq_of_bits ((hinv.forgetScan hsealed).respond 0) ?_ hu.len fun b => ?_
  · rw [← hinv.pos_eq]
    simp only [BitVec.ofNat_toNat, BitVec.setWidth_eq]
    rw [← hsealed, ← hu.frame]
    rfl
  · refine (hu.bits b).trans ?_
    by_cases hin : b < 32 * s.len.toNat
    · rw [decide_eq_true hin, Bool.true_and]
      rfl
    · rw [decide_eq_false hin, Bool.false_and]
      exact (State.bit_beyond (not_lt.mp hin)).symm

/-- Settles O59: `CLEAR` and the `PACK`s load the words of the structure, `ATTACH` adopts them. -/
theorem reloadRestoresStructure : Obligations.ReloadRestoresStructure := by
  intro s hinv hsealed is
  have hload : 0 + s.len.toNat ≤ s.cap.toNat := (Nat.zero_add _).trans_le hinv.len_le_cap
  obtain ⟨u, hloads, hu⟩ := hinv.loaded_zero.loadWords hload
  rw [Nat.zero_add] at hu
  rw [← List.range_eq_range'] at hloads
  have hwf : (Instr.attach s.mode s.k.toNat s.n.toNat).wf = true := by
    have hn : s.n.toNat < 2 ^ 63 := s.n.isLt.trans (by decide)
    simp only [Instr.wf, fitsW_natCast hinv.k_legal, fitsA_natCast hn, Bool.and_self]
  have hattach := exec_attach_of_legal hu.phase hinv.k_legal s.n.isLt hinv.zero_width
  rw [hinv.attach_loaded hsealed hu] at hattach
  exact (((runs_clear s).append hloads).append (.single hwf hattach)).run_issue

end Sys2Proof.Machine
end

section
/-! The system commands: what each does in every state, and the numbers in the registers (44_system_commands.md R160 to
R162; 10_state.md R26, R27, R32, R38). -/

namespace Sys2Proof.Machine

/-! ## The three commands, accepted in every phase -/

theorem exec_nop (s : State) : exec .nop s = .next (s.respond 0) := rfl

theorem exec_clear (s : State) : exec .clear s = .next (s.clearAll.respond 0) := rfl

theorem exec_rdcsr (c : Csr) (s : State) :
    exec (.rdcsr c) s = .next (s.respond (s.csrValue c)) := rfl

/-! ## `NOP` (R161) -/

/-- The encoding of `NOP` is the all-zero packet. -/
theorem encode_nop : encode .nop = 0 := by decide

/-- Settles O14: the all-zero packet decodes to what encodes to it, and `NOP` only responds. -/
theorem nopDoesNothing : Obligations.NopDoesNothing :=
  ⟨encode_nop ▸ decodeAfterEncode .nop rfl, exec_nop⟩

/-! ## `CLEAR` (R160) -/

/-- Once the response is given, `CLEAR` and a reset by the host leave the same state (R38, R160, R190): they differ only
in the response from before, which `CLEAR` replaces. -/
theorem State.respond_clearAll (s : State) (r : BitVec 128) :
    s.clearAll.respond r = s.hostReset.respond r := rfl

/-- Settles O15: the response aside, `CLEAR` is the host's reset. -/
theorem clearGivesResetState : Obligations.ClearGivesResetState := fun s =>
  (exec_clear s).trans (congrArg Host.Outcome.next (s.respond_clearAll 0))

/-! ## `RDCSR` (R162) -/

/-- Settles O16: the named registers by their values, `WMAX` as a constant, and a register that holds a number by its
zero-extension to the result field. -/
theorem rdcsrAnswersRegister : Obligations.RdcsrAnswersRegister := by
  intro s c
  refine ⟨s.csrValue c, exec_rdcsr c s, ?_⟩
  cases c with
  | phase =>
    change (s.phase.code.setWidth 128).toNat = _
    cases s.phase <;> rfl
  | mode =>
    change (s.mode.code.setWidth 128).toNat = _
    cases s.mode <;> rfl
  | sany =>
    change ((BitVec.ofBool s.sany).setWidth 128).toNat = _
    cases s.sany <;> rfl
  | wmax => rfl
  | k | n | len | pos | smax | err | cap => exact BitVec.toNat_setWidth_of_le (by decide)

end Sys2Proof.Machine
end

section
/-! What a packet that ends with an error leaves behind: the response, `ERR`, and the dead build of a `PUSH`
(60_exceptions.md R174, R176, R177). -/

namespace Sys2Proof.Machine

/-- The packet is a `PUSH` and finds a build in progress: the one exception R177 makes to R176. -/
def isPushInBuild (p : Packet) (s : State) : Prop :=
  (∃ v, decode p = .ok (.push v)) ∧ s.phase = .build

/-- A packet that answers a status other than OK has taken one of the two error entries, and which one is decided by
whether it is a `PUSH` in BUILD (R176, R177). -/
theorem runPacket_of_failing {p : Packet} {s t : State} {q : Packet} (h : runPacket p s = .next t)
    (hq : t.resp = some q) (hstatus : responseStatus q ≠ 0) :
    ∃ c : ErrorCode, q = responsePacket c.code 0 ∧
      (¬ isPushInBuild p s ∧ t = s.failWith c ∨
        isPushInBuild p s ∧ t = s.failBuild c) := by
  cases hdecode : decode p with
  | error e =>
    rw [runPacket_of_error hdecode] at h
    injection h with h
    subst h
    have hnot : ¬ isPushInBuild p s := fun ⟨⟨_, hpush⟩, _⟩ => by simp [hdecode] at hpush
    exact ⟨_, (Option.some.inj hq).symm, .inl ⟨hnot, rfl⟩⟩
  | ok i =>
    rw [runPacket_of_ok hdecode] at h
    obtain ⟨t', hexec, hend⟩ := exec_cases i s
    injection h.symm.trans hexec with htt'
    subst htt'
    rcases hend with ⟨c, rfl, houtside⟩ | ⟨c, v, rfl, hphase, rfl⟩ | ⟨u, r, rfl⟩
    · have hnot : ¬ isPushInBuild p s := fun ⟨⟨v, hpush⟩, hphase⟩ =>
        houtside v (Except.ok.inj (hdecode.symm.trans hpush)) hphase
      exact ⟨c, (Option.some.inj hq).symm, .inl ⟨hnot, rfl⟩⟩
    · exact ⟨c, (Option.some.inj hq).symm, .inr ⟨⟨⟨v, hdecode⟩, hphase⟩, rfl⟩⟩
    · obtain rfl : responsePacket statusOk r = q := Option.some.inj hq
      exact absurd (responseStatus_responsePacket statusOk r) hstatus

/-- Both error entries write the status of their response to `ERR` if it was 0 (R31). -/
theorem stickyErr_eq_responseStatus (err : BitVec 8) (c : ErrorCode) (r : BitVec 128) :
    stickyErr err c = if err = 0 then responseStatus (responsePacket c.code r) else err := by
  rw [responseStatus_responsePacket]
  rfl

/-- Settles O33: each of the two error entries writes the response and `ERR` and nothing else, but for the phase that
the entry of a `PUSH` in BUILD makes FAILED. -/
theorem failingCommandChangesOnlyErr : Obligations.FailingCommandChangesOnlyErr := by
  intro p s t q h hq hstatus
  obtain ⟨c, rfl, ⟨hnot, rfl⟩ | ⟨hpush, rfl⟩⟩ := runPacket_of_failing h hq hstatus
  · exact ⟨responseResult_responsePacket _ _, stickyErr_eq_responseStatus s.err c 0, rfl,
      fun hpush => absurd hpush hnot, fun _ => rfl⟩
  · exact ⟨responseResult_responsePacket _ _, stickyErr_eq_responseStatus s.err c 0, rfl,
      fun _ => rfl, fun hnot => absurd hpush hnot⟩

end Sys2Proof.Machine
end

section
/-! Reset by the host, and what a command does not depend on: neither the actions waiting at the port nor the response
last given (70_reset_and_hazards.md R190, R199). -/

namespace Sys2Proof.Machine

/-! ## Reset (R190) -/

/-- A reset next at the port is taken from it and resets the block. -/
theorem step_of_reset {s : State} {rest : List HostAction} (hport : s.port = .reset :: rest) :
    step s = .next ({ s with port := rest } : State).hostReset := by
  simp only [step_of_port, hport]

/-- A reset during a command resets the block in the same way: the packet in flight is dropped without being run. -/
theorem step_of_resetDuring {s : State} {p : Packet} {rest : List HostAction}
    (hport : s.port = .resetDuring p :: rest) :
    step s = .next ({ s with port := rest } : State).hostReset := by
  simp only [step_of_port, hport]

/-- Settles O10: the two branches of the step that reset, each with the state `hostReset` is by definition. -/
theorem hostResetStep : Obligations.HostResetStep :=
  fun _ _ _ => ⟨step_of_reset, step_of_resetDuring⟩

/-! ## No command reads the response, and every command replaces it (R199) -/

theorem State.extend_withResp (s : State) (q : Option Packet) (need : Nat) :
    ({ s with resp := q } : State).extend need = { s.extend need with resp := q } := by
  unfold State.extend
  split <;> rfl

theorem State.pack_withResp (s : State) (q : Option Packet) (a v w : Nat) :
    ({ s with resp := q } : State).pack a v w = { s.pack a v w with resp := q } := by
  simp only [State.pack, State.extend_withResp]

theorem State.placeElement_withResp (s : State) (q : Option Packet) (v : Nat) :
    ({ s with resp := q } : State).placeElement v = { s.placeElement v with resp := q } := by
  unfold State.placeElement
  rw [State.pack_withResp]
  rfl

theorem State.unpack_withResp (s : State) (q : Option Packet) (a w : Nat) :
    ({ s with resp := q } : State).unpack a w = s.unpack a w :=
  State.unpack_congr (s := { s with resp := q }) (t := s) rfl rfl a w

/-- Whatever response stood before, a command ends in the same outcome: each check reads the registers, and each end
gives a response of its own. Only the word array's operations need more than their definitions for that. -/
theorem exec_withResp (i : Instr) (s : State) (q : Option Packet) :
    exec i { s with resp := q } = exec i s := by
  cases i with
  | nop | clear | rdcsr | scan | begin | begina | sealBuild | attach | sbit => rfl
  | pack w a v =>
    simp only [exec, execPack, State.pack_withResp]
    rfl
  | push v =>
    simp only [exec, execPush, State.placeElement_withResp]
    rfl
  | unpack w a =>
    simp only [exec, execUnpack, State.unpack_withResp]
    rfl
  | get x =>
    simp only [exec, execGet, State.element, State.unpack_withResp]
    rfl

/-- Settles O39: the old response has no part in the outcome, and the waiting actions pass through it unread. -/
theorem commandIgnoresPort : Obligations.CommandIgnoresPort := by
  intro i s t q port hexec
  have hresp : exec i { s with resp := q } = .next t := (exec_withResp i s q).trans hexec
  exact exec_withPort_of_next hresp port

end Sys2Proof.Machine
end
